-- ==== Sys2Proof/Word.lean ====
section
/-! DEFINITION. The machine's words, at the widths of 00_scope.md R8: a byte (`W_BUS`, `W_VEC`), a 16-bit word
(`W_REG`, `W_ADDR`, `W_IDX`), the cycle counter (`W_CYC`) and the state code (`W_STATE`). -/

namespace Sys2Proof

/-- `W_BUS` and `W_VEC`: the bus latch, the Memory Port data, the interrupt vector (R8, R27, R35). -/
abbrev Byte := BitVec 8

/-- `W_REG`, `W_ADDR` and `W_IDX`: register pairs, `sp`, `pc`, `index`, addresses (R8, R21, R61). -/
abbrev Word := BitVec 16

/-- `W_CYC` at the spec's default of 32 bits: `cycles` and `nextEvent` (R8, R30; log 6). -/
abbrev Cycles := BitVec 32

/-- `W_STATE`: the 4-bit code in the execution-state register (R32, R90). -/
abbrev StateCode := BitVec 4

end Sys2Proof
end

