-- ==== Sys2Proof/Machine/Block.lean ====
section
/-! DEFINITION. The Register/State Block (10_state.md R20 to R36) as plain data, the references the core holds to its
collaborators (handlers, components), and the vocabulary of what a collaborator may write to the block (R40, R41). -/

namespace Sys2Proof.Machine

/-- A reference to an instruction handler: the spec's abstract parameter type `HANDLER` (R8, D13), as a numbered
reference (DESIGN CHOICE, log 1). What a handler does is not said by its number. -/
structure HandlerRef where
  id : Nat
  deriving DecidableEq, Repr, Inhabited

/-- A component descriptor (R180): which of the two optional hooks `init` and `deinit` it exposes. -/
structure Component where
  id        : Nat
  hasInit   : Bool
  hasDeinit : Bool
  deriving DecidableEq, Repr, Inhabited

/-- The Register/State Block, one per session (R20, R36). `AF` is held as the accumulator and the four flags, since
`F[3:0]` is hard-wired to zero (R24): see `Block.af`. -/
structure Block where
  /-- `A = AF[15:8]` (R22). -/
  a          : Byte
  /-- `F[7:4]`: Z, N, H, C from bit 3 of this field down to bit 0 (R23). -/
  flags      : BitVec 4
  bc         : Word
  de         : Word
  hl         : Word
  sp         : Word
  pc         : Word
  /-- The bus latch (R27). -/
  bus        : Byte
  /-- The index latch (R28). -/
  index      : Word
  /-- The instruction register `IR`, `none` being the null reference (R29). -/
  ir         : Option HandlerRef
  cycles     : Cycles
  nextEvent  : Cycles
  /-- The execution-state register (R32). -/
  state      : StateCode
  /-- Stored, and read by no rule of `Tick` (R33, R238). -/
  halted     : Bool
  irqPending : Bool
  irqVector  : Byte
  deriving DecidableEq, Repr, Inhabited

/-- Who writes to the block from outside the core, inside a step: a handler (R40), an Interrupt Port hook or a
component hook (R41, R187). -/
inductive Writer where
  | handler (h : HandlerRef)
  | processEvents
  | resetHook
  | setInterruptsEnabled
  | componentInit (c : Component)
  | componentDeinit (c : Component)
  deriving DecidableEq, Repr

/-- The fields of the block a fault record may name (R200). A byte half is recorded as its pair. -/
inductive Field where
  | af | bc | de | hl | sp | pc | bus | index | ir | cycles | nextEvent | state | halted | irqPending | irqVector
  deriving DecidableEq, Repr

/-- One write a collaborator makes to the block, admitted or not; `raiseIRQ` is a call of RaiseIRQ (R210). -/
inductive BlockWrite where
  | af (v : Word)
  | bc (v : Word)
  | de (v : Word)
  | hl (v : Word)
  | regA (v : Byte)
  | regF (v : Byte)
  | regB (v : Byte)
  | regC (v : Byte)
  | regD (v : Byte)
  | regE (v : Byte)
  | regH (v : Byte)
  | regL (v : Byte)
  | sp (v : Word)
  | pc (v : Word)
  | bus (v : Byte)
  | index (v : Word)
  | ir (r : Option HandlerRef)
  | state (code : StateCode)
  | nextEvent (v : Cycles)
  | halted (v : Bool)
  | cycles (v : Cycles)
  | irqPending (v : Bool)
  | irqVector (v : Byte)
  | raiseIRQ (vector : Byte)
  deriving DecidableEq, Repr

/-- How a handler or a hook answers one call: it never returns (R203), or it makes these writes in this order and
returns. -/
inductive CallAnswer where
  | hangs
  | returns (writes : List BlockWrite)
  deriving DecidableEq, Repr

/-- How the Memory Port answers one load (R62): it never returns (R80), or it gives a byte. -/
inductive LoadAnswer where
  | hangs
  | byte (v : Byte)
  deriving DecidableEq, Repr

/-- How the Memory Port answers one store (R63): it never returns (R80), or it takes the byte. -/
inductive StoreAnswer where
  | hangs
  | taken
  deriving DecidableEq, Repr

end Sys2Proof.Machine
end

