-- ==== Sys2Proof/Config.lean ====
section
/-! DEFINITION. What the implementation fixes (00_scope.md R8) and the free values: opaque constants with no body, so that
nothing in Lean can evaluate them or prove a value of them. -/

namespace Sys2Proof

open Sys2Proof.Machine

/-- `DISPATCH`, the opcode handler table of the machine (R8, R97): a configuration the spec leaves open (log 11). -/
opaque Config.dispatch : Byte → HandlerRef

/-- The master component of the machine (R180): a configuration the spec leaves open (log 11). -/
opaque Config.master : Component

/-- The peripheral slots of the machine, `N_SLOTS` of them (R8, R180, D26): a configuration the spec leaves open
(log 11). -/
opaque Config.slots : List (Option Component)

/-- The free value a load gives where no answer is scripted and the address is not plain RAM: the unconstrained
oracle `MEM` of R74 ("a load may return any byte"). The first argument counts free values, so that two loads of one
address may differ (R65; log 4). -/
opaque Config.freeByte : Nat → Word → Byte

/-- The free answer of a handler or hook that has no scripted answer (R8, D13, D14): the writes it makes, given who it is
and the block as it sees it at the call (R135). The first argument counts free values (log 3). -/
opaque Config.freeWrites : Nat → Writer → Block → List BlockWrite

end Sys2Proof
end

