-- ==== Sys2Proof/Machine/State.lean ====
section
/-! DEFINITION. The machine's state as plain data, the ways a step can stop, and the state right after reset. -/

namespace Sys2Proof.Machine

/-- A port event (00_scope.md R11; lifecycle events from R182 to R185). -/
inductive Event where
  | load (addr : Word)
  | store (addr : Word) (v : Byte)
  | exec (h : HandlerRef)
  | setIE (enabled : Bool)
  | processEvents
  | resetHook
  | initMaster
  | initSlot (i : Nat)
  | deinitMaster
  | deinitSlot (i : Nat)
  deriving DecidableEq, Repr

/-- An operation of the control surface that the host invokes between ticks, other than `Tick` (R190). -/
inductive HostOp where
  /-- AttachComponents (R181); `none` is an absent master (R180). -/
  | attachComponents (master : Option Component) (slots : List (Option Component))
  /-- Initialize (R182). -/
  | callInitialize
  /-- Shutdown (R183). -/
  | callShutdown
  /-- HotplugAttach (R184). -/
  | hotplugAttach (slot : Nat)
  /-- HotplugDetach (R185). -/
  | hotplugDetach (slot : Nat)
  /-- Reset (R252). -/
  | callReset
  /-- RaiseIRQ from outside the core (R210). -/
  | raiseIRQ (vector : Byte)
  deriving DecidableEq, Repr

/-- One call of the control surface by the host: the clock driver's Tick strobe (R3, R110), or another operation between
ticks (R190). -/
inductive HostCall where
  | tick
  | op (o : HostOp)
  deriving DecidableEq, Repr

/-- A range of addresses, both ends included, at which the platform is plain RAM (R74). -/
structure Region where
  first : Word
  last  : Word
  deriving DecidableEq, Repr

/-- What never returns when the core hangs (R203). -/
inductive Callee where
  | memoryLoad
  | memoryStore
  | hook (w : Writer)
  deriving DecidableEq, Repr

/-- Why the machine stops with a fault (60_exceptions.md R200). No fault transfers control anywhere. A faulted machine takes
no further step (R202): the run ends. Beside the value R200 records, each holds the port trace up to the stop, the events of
the step that stopped among them (R11, R120; log 19). All are safe: the run stops where the source says "fatal". -/
inductive Fault where
  /-- EXECUTE with `IR = none` (R134); records `cycles` of the tick. Raised by EXECUTE. Safe. -/
  | nullHandler (cycles : Cycles) (trace : List Event)
  /-- A write of a code 11 to 15 to `state` (R94, R172); records the code and the writer. Raised by any handler or hook
  call; with no writer, by a tick that finds such a code in the register, which no run reaches (log 12). Safe. -/
  | illegalState (code : StateCode) (writer : Option Writer) (trace : List Event)
  /-- A write R40, R41 or R187 does not admit (R42); records the field and the writer. Raised by any handler or hook
  call. Safe. -/
  | forbiddenWrite (field : Field) (writer : Writer) (trace : List Event)
  /-- A callback that never returns: the core has no next state (R80, R203; log 17). Raised by any port or hook call.
  Safe. -/
  | hang (callee : Callee) (trace : List Event)
  deriving DecidableEq, Repr

/-- The operation or the configuration has no meaning (60_exceptions.md R201). All are safe: the run stops. -/
inductive Refusal where
  /-- An instruction this model gives no meaning. Raised by `exec` for no instruction of the table. Safe. -/
  | notModelled (mnemonic : String)
  /-- A dispatcher entry is unpopulated (R97, R191). Raised by `State.create`. Safe. -/
  | configTable
  /-- A Memory Port or Interrupt Port operation is missing (R191). Raised by `State.create`. Safe. -/
  | configHook
  /-- The master component is absent (R180, R191). Raised by `State.create` and by AttachComponents with no master
  (log 18). Safe. -/
  | configMaster
  /-- Tick outside `phase = RUNNING`, Initialize twice, Shutdown before Initialize or twice, any operation after Shutdown
  (R110, R182, R183, R189, R201). Raised by every tick and host operation. Safe. -/
  | lifecycle
  deriving DecidableEq, Repr

/-- The spec's number of a fault (R200); a hang has none. -/
def Fault.code : Fault → Option Nat
  | .nullHandler _ _ => some 1
  | .illegalState _ _ _ => some 2
  | .forbiddenWrite _ _ _ => some 3
  | .hang _ _ => none

/-- The port trace up to the stop, the events of the faulted step at its end (R11, R120; log 19). -/
def Fault.trace : Fault → List Event
  | .nullHandler _ tr => tr
  | .illegalState _ _ tr => tr
  | .forbiddenWrite _ _ tr => tr
  | .hang _ tr => tr

/-- The spec's number of a refusal (R201). -/
def Refusal.code : Refusal → Option Nat
  | .notModelled _ => none
  | .configTable => some 16
  | .configHook => some 17
  | .configMaster => some 18
  | .lifecycle => some 19

/-- The whole state of the machine. -/
structure State where
  /-- The Register/State Block (R20, R36). -/
  block     : Block
  /-- Initialize has run (R39, R189). -/
  initDone  : Bool
  /-- Reset has run (R39, R189). -/
  resetDone : Bool
  /-- Shutdown has run (R39, R189). -/
  shutDown  : Bool
  /-- The Instruction Dispatcher table, populated (R37, R97). -/
  dispatch  : Vector HandlerRef 256
  /-- The master component (R180). -/
  master    : Component
  /-- The peripheral slots, `N_SLOTS` of them (R180). -/
  slots     : List (Option Component)
  /-- Contents of the platform's plain RAM: addresses strictly rising, no byte equal to `Memory.unlisted` (R74). -/
  mem       : List Host.Cell
  /-- Where the platform is plain RAM (R74; log 5). -/
  ram       : List Region
  /-- The port events so far, oldest first (R11, R120; log 19). -/
  trace     : List Event
  /-- The model's own: the host's next calls of the control surface, next first; when it is empty the host goes on calling
  Tick (R7b, R190; log 9). -/
  hostCalls : List HostCall
  /-- The model's own: scripted answers of the next handler and hook calls, next first (log 2). -/
  answers   : List CallAnswer
  /-- The model's own: scripted answers of the next loads outside plain RAM, next first (log 4). -/
  loads     : List LoadAnswer
  /-- The model's own: scripted answers of the next stores outside plain RAM, next first (log 4). -/
  stores    : List StoreAnswer
  /-- The model's own: how many free values have been drawn (log 3, log 4). -/
  draws     : Nat
  deriving DecidableEq, Repr

/-- The block at creation: every field zero, `IR = none`, `state = FETCH` (70_reset_and_hazards.md R250). -/
def Block.creation : Block where
  a := 0
  flags := 0
  bc := 0
  de := 0
  hl := 0
  sp := 0
  pc := 0
  bus := 0
  index := 0
  ir := none
  cycles := 0
  nextEvent := 0
  state := 0
  halted := false
  irqPending := false
  irqVector := 0

/-- The machine right after reset: created (R250), its components attached and initialised, then Reset (R252, R257), by hooks
that wrote nothing (log 10). The configuration is the free one of Config.lean (log 11). -/
def State.reset : State where
  block := Block.creation
  initDone := true
  resetDone := true
  shutDown := false
  dispatch := ⟨((List.finRange 256).map fun op => Config.dispatch (BitVec.ofFin op)).toArray, by simp⟩
  master := Config.master
  slots := Config.slots
  mem := []
  ram := []
  trace := []
  hostCalls := []
  answers := []
  loads := []
  stores := []
  draws := 0

end Sys2Proof.Machine
end

