-- ==== Sys2Proof/Machine/Memory.lean ====
section
/-! DEFINITION. The contents of the platform's plain RAM (20_memory.md R61, R74): a list of address and byte pairs in one
canonical form, one byte to an address (R68). -/

namespace Sys2Proof.Machine

/-- What a RAM byte that nothing has written reads as (DESIGN CHOICE, log 5; 95_test_vectors.md Part 3). -/
def Memory.unlisted : Byte := 0

/-- The byte a RAM address holds: the latest store, or the initial image (R74). -/
def Memory.read : List Host.Cell → Nat → Byte
  | [], _ => Memory.unlisted
  | (k, v) :: rest, addr => if k = addr then v else Memory.read rest addr

/-- The cell a byte needs: none where the byte is what an unlisted address reads as. -/
def Memory.cell (addr : Nat) (v : Byte) : List Host.Cell := if v = Memory.unlisted then [] else [(addr, v)]

/-- One byte stored, the list kept in canonical form. -/
def Memory.write : List Host.Cell → Nat → Byte → List Host.Cell
  | [], addr, v => Memory.cell addr v
  | (k, u) :: rest, addr, v =>
    if addr < k then Memory.cell addr v ++ (k, u) :: rest
    else if addr = k then Memory.cell addr v ++ rest
    else (k, u) :: Memory.write rest addr v

/-- Addresses strictly rising from `low`, inside the 16-bit space (R61), no byte equal to `Memory.unlisted`. -/
def Memory.wfFrom : Nat → List Host.Cell → Bool
  | _, [] => true
  | low, (k, v) :: rest => decide (low ≤ k) && decide (k < 65536) && decide (v ≠ Memory.unlisted) && Memory.wfFrom (k + 1) rest

/-- The canonical form. -/
def Memory.wf (m : List Host.Cell) : Bool := Memory.wfFrom 0 m

/-- The initial image of the platform's RAM, in any order, a later pair replacing an earlier one. -/
def Memory.image (cells : List (Word × Byte)) : List Host.Cell :=
  cells.foldl (fun m c => Memory.write m c.1.toNat c.2) []

/-- The platform is plain RAM at the address (R74). -/
def inRam (ram : List Region) (addr : Word) : Bool :=
  ram.any fun r => decide (r.first.toNat ≤ addr.toNat) && decide (addr.toNat ≤ r.last.toNat)

end Sys2Proof.Machine
end

