-- ==== Sys2Proof/Machine/Flags.lean ====
section
/-! DEFINITION. The flags byte (10_state.md R22 to R24). The core sets no flag: the only flag computation the spec gives is
that `F[3:0]` reads as zero and discards what is written to it. -/

namespace Sys2Proof.Machine

/-- The flags byte `F = AF[7:0]`, its low nibble hard-wired to zero (R22, R24). -/
def Block.f (b : Block) : Byte := b.flags ++ 0#4

/-- A write to `F` stores only its top nibble (R24). -/
def Block.setF (b : Block) (v : Byte) : Block := { b with flags := v.extractLsb' 4 4 }

/-- `Z = F[7]` (R23). -/
def Block.zeroFlag (b : Block) : Bool := b.f.getLsbD 7

/-- `N = F[6]` (R23). -/
def Block.subtractFlag (b : Block) : Bool := b.f.getLsbD 6

/-- `H = F[5]` (R23). -/
def Block.halfCarryFlag (b : Block) : Bool := b.f.getLsbD 5

/-- `C = F[4]` (R23). -/
def Block.carryFlag (b : Block) : Bool := b.f.getLsbD 4

end Sys2Proof.Machine
end

