-- ==== Sys2Proof/Machine/Operands.lean ====
section
/-! DEFINITION. Operand forms: the byte halves of the register pairs (10_state.md R22) and the implicit operands of the
micro-states (30_encoding.md R99). -/

namespace Sys2Proof.Machine

/-- `v[15:8]` (R22). -/
def hiByte (v : Word) : Byte := v.extractLsb' 8 8

/-- `v[7:0]` (R22). -/
def loByte (v : Word) : Byte := v.extractLsb' 0 8

/-- The pair with its high half replaced (R22). -/
def withHi (pair : Word) (v : Byte) : Word := v ++ loByte pair

/-- The pair with its low half replaced (R22). -/
def withLo (pair : Word) (v : Byte) : Word := hiByte pair ++ v

/-- `zext_16(v)` (R9, R131). -/
def zext16 (v : Byte) : Word := v.setWidth 16

/-- The pair `AF`: `A` above `F` (R22), so that `AF[3:0]` reads as zero (R24). -/
def Block.af (b : Block) : Word := b.a ++ b.f

/-- `AF <- v` stores `v[15:4]` (R24). -/
def Block.setAF (b : Block) (v : Word) : Block := { (b.setF (loByte v)) with a := hiByte v }

/-- The address FETCH and READ_PC present (R66, R71, R99). -/
def pcAddress (b : Block) : Word := b.pc

/-- The address MEMORY_LOAD and MEMORY_STORE present (R66, R71, R99). -/
def indexAddress (b : Block) : Word := b.index

/-- The byte MEMORY_STORE stores (R27, R99). -/
def storeData (b : Block) : Byte := b.bus

/-- The opcode at DECODE (R96, R99). -/
def opcode (b : Block) : Byte := b.bus

/-- The entry of the dispatcher table an opcode selects (R97). -/
def dispatchEntry (s : State) (op : Byte) : HandlerRef := s.dispatch.get op.toFin

end Sys2Proof.Machine
end

