-- ==== Sys2Proof/Machine/Ops.lean ====
section
/-! DEFINITION. The named operations every meaning is built from: writes to the block and their checks (R40 to R42, R172),
the ports (R62, R63, R134, R220), RaiseIRQ and the taking of an interrupt (R131, R210), and the tick frame (R110). The core
has no return from interrupt (R216), so none stands beside the entry. -/

namespace Sys2Proof.Machine

/-- What one step or part of a step answers. -/
abbrev Result := Host.Outcome State Fault Refusal

/-- Go on from a next state, or stop. -/
def andThen (r : Result) (f : State → Result) : Result :=
  match r with
  | .next s => f s
  | .fault x => .fault x
  | .refused x => .refused x

/-- The state with its block changed. -/
def State.onBlock (s : State) (f : Block → Block) : State := { s with block := f s.block }

/-- One event recorded in the port trace (R11). -/
def State.record (s : State) (e : Event) : State := { s with trace := s.trace ++ [e] }

/-- `phase = RUNNING` (R189). -/
def State.running (s : State) : Bool := s.initDone && s.resetDone && !s.shutDown

/-- The auto-advance (R92, R113): `(code + 1) & 0b11`. -/
def autoAdvance (code : StateCode) : StateCode := (code + 1) &&& 3

/-- The eleven defined codes (R91, R94). -/
def legalCode (code : StateCode) : Bool := decide (code.toNat ≤ 10)

/-! ### Writes to the block -/

/-- RaiseIRQ: the latch is set and the vector recorded unconditionally (R210, R211). -/
def raiseIRQ (vector : Byte) (b : Block) : Block := { b with irqPending := true, irqVector := vector }

/-- The effect of one admitted write (R22, R24, R40). -/
def applyWrite (b : Block) : BlockWrite → Block
  | .af v => b.setAF v
  | .bc v => { b with bc := v }
  | .de v => { b with de := v }
  | .hl v => { b with hl := v }
  | .regA v => { b with a := v }
  | .regF v => b.setF v
  | .regB v => { b with bc := withHi b.bc v }
  | .regC v => { b with bc := withLo b.bc v }
  | .regD v => { b with de := withHi b.de v }
  | .regE v => { b with de := withLo b.de v }
  | .regH v => { b with hl := withHi b.hl v }
  | .regL v => { b with hl := withLo b.hl v }
  | .sp v => { b with sp := v }
  | .pc v => { b with pc := v }
  | .bus v => { b with bus := v }
  | .index v => { b with index := v }
  | .ir r => { b with ir := r }
  | .state c => { b with state := c }
  | .nextEvent v => { b with nextEvent := v }
  | .halted v => { b with halted := v }
  | .cycles v => { b with cycles := v }
  | .irqPending v => { b with irqPending := v }
  | .irqVector v => { b with irqVector := v }
  | .raiseIRQ v => raiseIRQ v b

/-- The field a write is to, as a fault record names it (R200). -/
def BlockWrite.field : BlockWrite → Field
  | .af _ => .af
  | .bc _ => .bc
  | .de _ => .de
  | .hl _ => .hl
  | .regA _ => .af
  | .regF _ => .af
  | .regB _ => .bc
  | .regC _ => .bc
  | .regD _ => .de
  | .regE _ => .de
  | .regH _ => .hl
  | .regL _ => .hl
  | .sp _ => .sp
  | .pc _ => .pc
  | .bus _ => .bus
  | .index _ => .index
  | .ir _ => .ir
  | .state _ => .state
  | .nextEvent _ => .nextEvent
  | .halted _ => .halted
  | .cycles _ => .cycles
  | .irqPending _ => .irqPending
  | .irqVector _ => .irqVector
  | .raiseIRQ _ => .irqVector

/-- The writes a handler may make (R40): every field but `cycles` and the interrupt latch, `IR` only to `some h`, `state`
only to a legal code, the latch only through RaiseIRQ. -/
def handlerMay : BlockWrite → Bool
  | .ir r => r.isSome
  | .state c => legalCode c
  | .cycles _ => false
  | .irqPending _ => false
  | .irqVector _ => false
  | .af _ => true
  | .bc _ => true
  | .de _ => true
  | .hl _ => true
  | .regA _ => true
  | .regF _ => true
  | .regB _ => true
  | .regC _ => true
  | .regD _ => true
  | .regE _ => true
  | .regH _ => true
  | .regL _ => true
  | .sp _ => true
  | .pc _ => true
  | .bus _ => true
  | .index _ => true
  | .nextEvent _ => true
  | .halted _ => true
  | .raiseIRQ _ => true

/-- Whether the write is a call of RaiseIRQ: all that `setInterruptsEnabled` and component hooks may do (R41, R187). -/
def BlockWrite.isRaise : BlockWrite → Bool
  | .raiseIRQ _ => true
  | _ => false

/-- What `processEvents` and `reset` may do (R41): RaiseIRQ, `nextEvent`, `halted`. -/
def eventHookMay : BlockWrite → Bool
  | .nextEvent _ => true
  | .halted _ => true
  | w => w.isRaise

/-- Which writes of a writer the rules admit (R40, R41, R187). -/
def admits : Writer → BlockWrite → Bool
  | .handler _, w => handlerMay w
  | .processEvents, w => eventHookMay w
  | .resetHook, w => eventHookMay w
  | .setInterruptsEnabled, w => w.isRaise
  | .componentInit _, w => w.isRaise
  | .componentDeinit _, w => w.isRaise

/-- The fault of a write that is not admitted: an illegal code faults ILLEGAL_STATE whoever writes it (R42, R94, R172), any
other write FORBIDDEN_WRITE (R42). The trace is the one at the write. -/
def writeFault (who : Writer) (w : BlockWrite) (trace : List Event) : Fault :=
  match w with
  | .state c => if legalCode c then .forbiddenWrite .state who trace else .illegalState c (some who) trace
  | w => .forbiddenWrite w.field who trace

/-- Writes in their order, a later one replacing an earlier one (R10, R115). -/
def applyWrites (ws : List BlockWrite) (b : Block) : Block := ws.foldl applyWrite b

/-- Writes in their order, each checked when it is made; the first that is not admitted stops the step (R42, R122, R218). -/
def checkedWrites (who : Writer) : List BlockWrite → State → Result
  | [], s => .next s
  | w :: ws, s =>
    if admits who w then checkedWrites who ws (s.onBlock fun b => applyWrite b w) else .fault (writeFault who w s.trace)

/-! ### Ports -/

/-- The writes a handler or hook with no scripted answer makes: free, within what the rules admit (log 3). -/
def freeAnswer (who : Writer) (s : State) : List BlockWrite := (Config.freeWrites s.draws who s.block).filter (admits who)

/-- One call of a handler or hook (R11, R134, R220): the event is recorded, and the call is answered by the next scripted
answer, or by a free one. It sees the block as it stands (R135). -/
def callOut (who : Writer) (e : Event) (s : State) : Result :=
  match s.answers with
  | [] => .next { (s.record e).onBlock (applyWrites (freeAnswer who s)) with draws := s.draws + 1 }
  | .hangs :: _ => .fault (.hang (.hook who) (s.record e).trace)
  | .returns ws :: rest => checkedWrites who ws { s.record e with answers := rest }

/-- `bus <- MemRead(addr, 1)` (R11, R62): plain RAM gives the byte it holds, any other address the next scripted answer, or
a free byte (R74; log 4). -/
def loadBus (addr : Word) (s : State) : Result :=
  let s := s.record (.load addr)
  if inRam s.ram addr then .next (s.onBlock fun b => { b with bus := Memory.read s.mem addr.toNat })
  else match s.loads with
    | [] => .next { s.onBlock (fun b => { b with bus := Config.freeByte s.draws addr }) with draws := s.draws + 1 }
    | .hangs :: _ => .fault (.hang .memoryLoad s.trace)
    | .byte v :: rest => .next { s.onBlock (fun b => { b with bus := v }) with loads := rest }

/-- `MemWrite(addr, 1, v)` (R11, R63): plain RAM keeps the byte (R74), any other address takes it with no effect the core can
see until a load is answered (log 4). No field of the block changes (R64). -/
def storeByte (addr : Word) (v : Byte) (s : State) : Result :=
  let s := s.record (.store addr v)
  if inRam s.ram addr then .next { s with mem := Memory.write s.mem addr.toNat v }
  else match s.stores with
    | [] => .next s
    | .hangs :: _ => .fault (.hang .memoryStore s.trace)
    | .taken :: rest => .next { s with stores := rest }

/-! ### Taking an interrupt -/

/-- Interrupt entry (R131): `pc` redirected to the zero-extended vector, the latch consumed, then the Interrupt Port told to
disable interrupts. Nothing is saved (R215) and no cycle is added (R132). -/
def takeInterrupt (s : State) : Result :=
  callOut .setInterruptsEnabled (.setIE false)
    (s.onBlock fun b => { b with pc := zext16 b.irqVector, irqPending := false })

/-! ### The tick frame -/

/-- Steps 1 and 2 of a tick (R111 to R113): the cycle counted, the state auto-advanced from the captured code. -/
def beginTick (code : StateCode) (b : Block) : Block := { b with cycles := b.cycles + 1, state := autoAdvance code }

/-- The deadline is reached or passed: a plain unsigned comparison (R116, R118). -/
def eventDue (b : Block) : Bool := decide (b.nextEvent.toNat ≤ b.cycles.toNat)

/-- Step 4 of a tick (R116): the event hook, at most once. -/
def eventCheck (s : State) : Result := if eventDue s.block then callOut .processEvents .processEvents s else .next s

/-- One whole tick whose captured code is `code` and whose step 3 is `body` (R110): refused outside `phase = RUNNING`; a
fault of the body stops the tick before the event check (R122). -/
def tick (code : StateCode) (body : State → Result) (s : State) : Result :=
  if s.running then andThen (body (s.onBlock (beginTick code))) eventCheck else .refused .lifecycle

end Sys2Proof.Machine
end

