-- ==== Sys2Proof/Machine/Control.lean ====
section
/-! DEFINITION. The control surface other than Tick (44_control_surface.md, R210, R252), and the creation of a machine from a
checked configuration (R191, R250). -/

namespace Sys2Proof.Machine

/-- An operation refused after Shutdown (R189). -/
def unlessShutDown (s : State) (r : Result) : Result := if s.shutDown then .refused .lifecycle else r

/-- A component's `init` hook, if it has one (R180, R182, R184). -/
def callInit (e : Event) (c : Component) (s : State) : Result :=
  if c.hasInit then callOut (.componentInit c) e s else .next s

/-- A component's `deinit` hook, if it has one (R180, R183, R185). -/
def callDeinit (e : Event) (c : Component) (s : State) : Result :=
  if c.hasDeinit then callOut (.componentDeinit c) e s else .next s

/-- The `init` hooks of the populated slots, in slot order from slot `i` on (R182). -/
def initSlots : Nat → List (Option Component) → State → Result
  | _, [], s => .next s
  | i, none :: rest, s => initSlots (i + 1) rest s
  | i, some c :: rest, s => andThen (callInit (.initSlot i) c s) (initSlots (i + 1) rest)

/-- The `deinit` hooks of the populated slots, in slot order from slot `i` on (R183). -/
def deinitSlots : Nat → List (Option Component) → State → Result
  | _, [], s => .next s
  | i, none :: rest, s => deinitSlots (i + 1) rest s
  | i, some c :: rest, s => andThen (callDeinit (.deinitSlot i) c s) (deinitSlots (i + 1) rest)

/-- AttachComponents (R181): binds the master and replaces the slots, calling no hook; a master must be given (R180). -/
def attachComponents (m : Option Component) (slots : List (Option Component)) (s : State) : Result :=
  unlessShutDown s
    (match m with
    | none => .refused .configMaster
    | some m => .next { s with master := m, slots := slots })

/-- Initialize (R182): the master's hook, then the slots'; once, and not after Shutdown. -/
def runInitialize (s : State) : Result :=
  if s.initDone || s.shutDown then .refused .lifecycle
  else andThen (callInit .initMaster s.master s) fun s =>
    andThen (initSlots 0 s.slots s) fun s => .next { s with initDone := true }

/-- Shutdown (R183): the master's hook, then the slots'; after Initialize, and once. -/
def runShutdown (s : State) : Result :=
  if !s.initDone || s.shutDown then .refused .lifecycle
  else andThen (callDeinit .deinitMaster s.master s) fun s =>
    andThen (deinitSlots 0 s.slots s) fun s => .next { s with shutDown := true }

/-- HotplugAttach (R184); an empty slot, an absent hook or a slot out of range does nothing (R186). -/
def hotplugAttach (i : Nat) (s : State) : Result :=
  unlessShutDown s
    (match s.slots[i]? with
    | some (some c) => callInit (.initSlot i) c s
    | some none => .next s
    | none => .next s)

/-- HotplugDetach (R185); the slot is not emptied. -/
def hotplugDetach (i : Nat) (s : State) : Result :=
  unlessShutDown s
    (match s.slots[i]? with
    | some (some c) => callDeinit (.deinitSlot i) c s
    | some none => .next s
    | none => .next s)

/-- What Reset writes itself (R252): `bus`, `index` and the interrupt latch keep their values (R253). -/
def resetBlock (b : Block) : Block :=
  { (b.setAF 0) with
    bc := 0, de := 0, hl := 0, sp := 0, pc := 0, ir := none, cycles := 0, nextEvent := 0, state := 0, halted := false }

/-- Reset (R251, R252): the zeroing, then the Interrupt Port's reset hook (R254). -/
def runReset (s : State) : Result :=
  unlessShutDown s
    (andThen (callOut .resetHook .resetHook (s.onBlock resetBlock)) fun s => .next { s with resetDone := true })

/-- RaiseIRQ from outside the core (R210): allowed in every phase before Shutdown; calls no port. -/
def hostRaiseIRQ (vector : Byte) (s : State) : Result := unlessShutDown s (.next (s.onBlock (raiseIRQ vector)))

/-- One operation of the control surface (R190). -/
def perform (op : HostOp) (s : State) : Result :=
  match op with
  | .attachComponents m slots => attachComponents m slots s
  | .callInitialize => runInitialize s
  | .callShutdown => runShutdown s
  | .hotplugAttach i => hotplugAttach i s
  | .hotplugDetach i => hotplugDetach i s
  | .callReset => runReset s
  | .raiseIRQ v => hostRaiseIRQ v s

/-! ### Creation -/

/-- A configuration as the embedding application offers it, unchecked (R191), with the memory subsystem's RAM regions and
initial image (R74). -/
structure RawConfig where
  table                : List (Option HandlerRef)
  load                 : Bool
  store                : Bool
  irqReset             : Bool
  setInterruptsEnabled : Bool
  processEvents        : Bool
  master               : Option Component
  slots                : List (Option Component)
  ram                  : List Region
  image                : List (Word × Byte)
  deriving DecidableEq, Repr

/-- The handlers of a table, if every entry is populated (R97). -/
def populated : List (Option HandlerRef) → Option (List HandlerRef)
  | [] => some []
  | none :: _ => none
  | some h :: rest => (populated rest).map (h :: ·)

/-- A dispatcher table: exactly 256 populated entries (R97). -/
def checkTable (table : List (Option HandlerRef)) : Option (Vector HandlerRef 256) :=
  match populated table with
  | none => none
  | some hs => if h : hs.length = 256 then some ⟨hs.toArray, by simpa using h⟩ else none

/-- Every Memory Port and Interrupt Port operation is present (R191). -/
def hooksPresent (c : RawConfig) : Bool :=
  c.load && c.store && c.irqReset && c.setInterruptsEnabled && c.processEvents

/-- Creation: the configuration checked (R191), the block and the lifecycle at their creation values (R250). -/
def State.create (c : RawConfig) : Result :=
  match checkTable c.table with
  | none => .refused .configTable
  | some table =>
    if hooksPresent c then
      match c.master with
      | none => .refused .configMaster
      | some m =>
        .next
          { block := Block.creation, initDone := false, resetDone := false, shutDown := false, dispatch := table,
            master := m, slots := c.slots, mem := Memory.image c.image, ram := c.ram, trace := [], hostCalls := [],
            answers := [], loads := [], stores := [], draws := 0 }
    else .refused .configHook

end Sys2Proof.Machine
end

