-- ==== Sys2Proof/Syntax.lean ====
section
/-! DEFINITION. The instructions: one constructor per row of spec/opcode_table.json. The rows of format STATE4 are the
micro-states (30_encoding.md R91), the row of format OPBYTE8 is the opcode dispatch (R96, R97). -/

namespace Sys2Proof

/-- The machine's instructions. Micro-states have no operand fields: their operands are implicit (R99). -/
inductive Instr where
  | fetch
  | decode
  | execute
  | slot3
  | memoryLoad
  | memoryStore
  | readPc
  | memoryMoveIndexLoad
  | memoryMoveIndexStore
  | readPcStall
  | stall
  | illegalState11
  | illegalState12
  | illegalState13
  | illegalState14
  | illegalState15
  /-- The DECODE of the opcode byte `op` (R133): all 256 values select an entry (R96). -/
  | dispatch (op : Byte)
  deriving DecidableEq, Repr

/-- The two encodings of the hardware (R90, R96). -/
inductive Format where
  | state4
  | opByte8
  deriving DecidableEq, Repr

end Sys2Proof
end

