-- ==== Sys2Proof/WellFormed.lean ====
section
/-! DEFINITION. Which instructions are well-formed: the eleven defined micro-states and every opcode byte. Codes 11 to 15
are not defined values of the state register (30_encoding.md R94). -/

namespace Sys2Proof

/-- The instruction is a defined micro-state (R91) or an opcode dispatch (R96: no reserved opcode value exists). -/
def Instr.wellFormed : Instr → Bool
  | .fetch => true
  | .decode => true
  | .execute => true
  | .slot3 => true
  | .memoryLoad => true
  | .memoryStore => true
  | .readPc => true
  | .memoryMoveIndexLoad => true
  | .memoryMoveIndexStore => true
  | .readPcStall => true
  | .stall => true
  | .illegalState11 => false
  | .illegalState12 => false
  | .illegalState13 => false
  | .illegalState14 => false
  | .illegalState15 => false
  | .dispatch _ => true

end Sys2Proof
end

