-- ==== Sys2Proof/Decode.lean ====
section
/-! DEFINITION. Decoding and encoding (30_encoding.md). The state register is decoded afresh at every tick (R90, R91); the
opcode byte selects a dispatcher entry (R96, R97). After the decoder, the encoder written from the same table. -/

namespace Sys2Proof

/-- The micro-state a 4-bit state code names (R91), total: codes 11 to 15 name the illegal rows. -/
def decodeState (code : StateCode) : Instr :=
  match code.toNat with
  | 0 => .fetch
  | 1 => .decode
  | 2 => .execute
  | 3 => .slot3
  | 4 => .memoryLoad
  | 5 => .memoryStore
  | 6 => .readPc
  | 7 => .memoryMoveIndexLoad
  | 8 => .memoryMoveIndexStore
  | 9 => .readPcStall
  | 10 => .stall
  | 11 => .illegalState11
  | 12 => .illegalState12
  | 13 => .illegalState13
  | 14 => .illegalState14
  | _ => .illegalState15

/-- Every opcode byte selects an entry (R96, R97). -/
def decodeOpcode (op : Byte) : Instr := .dispatch op

/-- Why a word or a list of bytes is no instruction. -/
inductive DecodeError where
  /-- The list of bytes is empty. -/
  | noByte
  /-- The word has bits above the 4-bit state register (R90). -/
  | widerThanStateRegister
  /-- The word has bits above the opcode byte (R96). -/
  | widerThanOpcodeByte
  deriving DecidableEq, Repr

/-- The instruction a word of a format stands for, or why it is none. -/
def decodeWord (f : Format) (w : Nat) : Except DecodeError Instr :=
  match f with
  | .state4 => if w < 16 then .ok (decodeState (BitVec.ofNat 4 w)) else .error .widerThanStateRegister
  | .opByte8 => if w < 256 then .ok (decodeOpcode (BitVec.ofNat 8 w)) else .error .widerThanOpcodeByte

/-- Decoding from bytes, the state code held in the low half of one byte: the instruction and the bytes after it. -/
def decodeBytes (f : Format) : List Byte → Except DecodeError (Instr × List Byte)
  | [] => .error .noByte
  | b :: rest =>
    match decodeWord f b.toNat with
    | .ok i => .ok (i, rest)
    | .error e => .error e

/-- The table's numbering of a word of `nbits` bits, without its format: a state code where it fits the 4-bit state
register, an opcode byte otherwise (DESIGN CHOICE, log 14: the table's two formats overlap on 0 to 15). -/
def tableFormat (w : Nat) : Format := if w < 16 then .state4 else .opByte8

/-- The instruction the decoder reads from an instruction whose bits are `w` (the host's numbering of
spec/opcode_table.json). -/
def decodeTableWord (nbits w : Nat) : Option Instr :=
  if w < 2 ^ nbits ∧ w < 256 then
    match decodeBytes (tableFormat w) [BitVec.ofNat 8 w] with
    | .ok (i, _) => some i
    | .error _ => none
  else none

/-- The format of an instruction's row in the table. -/
def Instr.format : Instr → Format
  | .dispatch _ => .opByte8
  | .fetch => .state4
  | .decode => .state4
  | .execute => .state4
  | .slot3 => .state4
  | .memoryLoad => .state4
  | .memoryStore => .state4
  | .readPc => .state4
  | .memoryMoveIndexLoad => .state4
  | .memoryMoveIndexStore => .state4
  | .readPcStall => .state4
  | .stall => .state4
  | .illegalState11 => .state4
  | .illegalState12 => .state4
  | .illegalState13 => .state4
  | .illegalState14 => .state4
  | .illegalState15 => .state4

/-- `code(S)` of R12 and R91; a dispatch stands at DECODE, the micro-state that performs it (R133). -/
def Instr.code : Instr → StateCode
  | .fetch => 0
  | .decode => 1
  | .execute => 2
  | .slot3 => 3
  | .memoryLoad => 4
  | .memoryStore => 5
  | .readPc => 6
  | .memoryMoveIndexLoad => 7
  | .memoryMoveIndexStore => 8
  | .readPcStall => 9
  | .stall => 10
  | .illegalState11 => 11
  | .illegalState12 => 12
  | .illegalState13 => 13
  | .illegalState14 => 14
  | .illegalState15 => 15
  | .dispatch _ => 1

/-- The word of an instruction in its format (R91, R96). -/
def encode : Instr → Nat
  | .dispatch op => op.toNat
  | .fetch => 0b0000
  | .decode => 0b0001
  | .execute => 0b0010
  | .slot3 => 0b0011
  | .memoryLoad => 0b0100
  | .memoryStore => 0b0101
  | .readPc => 0b0110
  | .memoryMoveIndexLoad => 0b0111
  | .memoryMoveIndexStore => 0b1000
  | .readPcStall => 0b1001
  | .stall => 0b1010
  | .illegalState11 => 0b1011
  | .illegalState12 => 0b1100
  | .illegalState13 => 0b1101
  | .illegalState14 => 0b1110
  | .illegalState15 => 0b1111

/-- The byte that holds an instruction's word. -/
def encodeByte (i : Instr) : Byte := BitVec.ofNat 8 (encode i)

end Sys2Proof
end

