-- ==== Sys2Proof/Machine/MemoryPhase.lean ====
section
/-! DEFINITION. The memory-phase micro-states (42_memory_phase.md). -/

namespace Sys2Proof.Machine

/-- A forced transition: a write of `state` in step 3, over the auto-advance (R95, R115). -/
def forceState (code : StateCode) (s : State) : State := s.onBlock fun b => { b with state := code }

/-- MEMORY_LOAD (R150): `bus <- MemRead(index, 1)`. -/
def execMemoryLoad (s : State) : Result := tick 4 (fun s => loadBus (indexAddress s.block) s) s

/-- MEMORY_STORE (R151): `MemWrite(index, 1, bus)`. -/
def execMemoryStore (s : State) : Result := tick 5 (fun s => storeByte (indexAddress s.block) (storeData s.block) s) s

/-- Step 3 of READ_PC (R152): the byte at `pc` into `bus`, `pc` advanced, then READ_PC_STALL forced. -/
def readPcBody (s : State) : Result :=
  andThen (loadBus (pcAddress s.block) s) fun s => .next (forceState 9 (s.onBlock fun b => { b with pc := b.pc + 1 }))

/-- READ_PC (R152). -/
def execReadPc (s : State) : Result := tick 6 readPcBody s

/-- MEMORY_MOVE_INDEX_LOAD (R153): MEMORY_LOAD forced, no port call. -/
def execMemoryMoveIndexLoad (s : State) : Result := tick 7 (fun s => .next (forceState 4 s)) s

/-- MEMORY_MOVE_INDEX_STORE (R154): MEMORY_STORE forced, no port call. -/
def execMemoryMoveIndexStore (s : State) : Result := tick 8 (fun s => .next (forceState 5 s)) s

end Sys2Proof.Machine
end

