-- ==== Sys2Proof/Machine/Ring.lean ====
section
/-! DEFINITION. The four ring states and the opcode dispatch (41_fetch_decode_execute.md). -/

namespace Sys2Proof.Machine

/-- Step 3 of FETCH: a pending interrupt is taken (R131), then the byte at `pc` is loaded into `bus`; `pc` is not advanced
(R130). -/
def fetchBody (s : State) : Result :=
  andThen (if s.block.irqPending then takeInterrupt s else .next s) fun s => loadBus (pcAddress s.block) s

/-- FETCH (R130, R131, R132). -/
def execFetch (s : State) : Result := tick 0 fetchBody s

/-- Step 3 of DECODE for an opcode byte (R133): `IR <- some DISPATCH[op]`, `pc <- pc + 1` modulo 2^16. -/
def dispatchBody (op : Byte) (s : State) : Result :=
  .next (s.onBlock fun b => { b with ir := some (dispatchEntry s op), pc := b.pc + 1 })

/-- DECODE (R133): the opcode is the byte latched in `bus`, not a fresh read (R78). -/
def execDecode (s : State) : Result := tick 1 (fun s => dispatchBody (opcode s.block) s) s

/-- `DISPATCH[op]` (R96, R97, R133): the DECODE tick of the opcode byte `op`. -/
def execDispatch (op : Byte) (s : State) : Result := tick 1 (dispatchBody op) s

/-- Step 3 of EXECUTE (R134): the latched handler is called with the core; a null one is a fault recording `cycles`. -/
def executeBody (s : State) : Result :=
  match s.block.ir with
  | none => .fault (.nullHandler s.block.cycles s.trace)
  | some h => callOut (.handler h) (.exec h) s

/-- EXECUTE (R134, R135). -/
def execExecute (s : State) : Result := tick 2 executeBody s

/-- SLOT3 (R136): nothing. -/
def execSlot3 (s : State) : Result := tick 3 .next s

end Sys2Proof.Machine
end

