-- ==== Sys2Proof/Machine/StallPhase.lean ====
section
/-! DEFINITION. The stall micro-states and the illegal state codes (43_stall.md). -/

namespace Sys2Proof.Machine

/-- READ_PC_STALL (R170): nothing. -/
def execReadPcStall (s : State) : Result := tick 9 .next s

/-- STALL (R171): nothing. -/
def execStall (s : State) : Result := tick 10 .next s

/-- A tick that finds an illegal code in the state register: ILLEGAL_STATE (R94, R172). No run reaches it, since every write
of such a code is itself that fault; the record names no writer (log 12). -/
def illegalTick (code : StateCode) (s : State) : Result := tick code (fun s => .fault (.illegalState code none s.trace)) s

/-- Code 11 (R172). -/
def execIllegalState11 (s : State) : Result := illegalTick 11 s

/-- Code 12 (R172). -/
def execIllegalState12 (s : State) : Result := illegalTick 12 s

/-- Code 13 (R172). -/
def execIllegalState13 (s : State) : Result := illegalTick 13 s

/-- Code 14 (R172). -/
def execIllegalState14 (s : State) : Result := illegalTick 14 s

/-- Code 15 (R172). -/
def execIllegalState15 (s : State) : Result := illegalTick 15 s

end Sys2Proof.Machine
end

