-- ==== Sys2Proof/Machine/Dispatch.lean ====
section
/-! DEFINITION. One arm per instruction: the tick whose captured micro-state it is (40_tick.md R114). -/

namespace Sys2Proof.Machine

/-- The tick that runs an instruction (R110, R114). -/
def exec (i : Instr) (s : State) : Host.Outcome State Fault Refusal :=
  match i with
  | .fetch => Sys2Proof.Machine.execFetch s
  | .decode => Sys2Proof.Machine.execDecode s
  | .execute => Sys2Proof.Machine.execExecute s
  | .slot3 => Sys2Proof.Machine.execSlot3 s
  | .memoryLoad => Sys2Proof.Machine.execMemoryLoad s
  | .memoryStore => Sys2Proof.Machine.execMemoryStore s
  | .readPc => Sys2Proof.Machine.execReadPc s
  | .memoryMoveIndexLoad => Sys2Proof.Machine.execMemoryMoveIndexLoad s
  | .memoryMoveIndexStore => Sys2Proof.Machine.execMemoryMoveIndexStore s
  | .readPcStall => Sys2Proof.Machine.execReadPcStall s
  | .stall => Sys2Proof.Machine.execStall s
  | .illegalState11 => Sys2Proof.Machine.execIllegalState11 s
  | .illegalState12 => Sys2Proof.Machine.execIllegalState12 s
  | .illegalState13 => Sys2Proof.Machine.execIllegalState13 s
  | .illegalState14 => Sys2Proof.Machine.execIllegalState14 s
  | .illegalState15 => Sys2Proof.Machine.execIllegalState15 s
  | .dispatch op => Sys2Proof.Machine.execDispatch op s

end Sys2Proof.Machine
end

