-- ==== Sys2Proof/Machine/Fetch.lean ====
section
/-! DEFINITION. What the next step is: the host's next call, and where a tick reads the instruction it runs: the state
register (30_encoding.md R90), and `bus` at DECODE (R96). -/

namespace Sys2Proof.Machine

/-- The micro-state captured by a tick (R112, R114). -/
def fetchInstr (s : State) : Instr := decodeState s.block.state

/-- The host's next call: the clock driver goes on with Tick where nothing else is queued (R3, R190; log 9). -/
def nextCall (s : State) : HostCall :=
  match s.hostCalls with
  | [] => .tick
  | c :: _ => c

/-- The state with the host's next call taken from its queue. -/
def afterNextCall (s : State) : State := { s with hostCalls := s.hostCalls.tail }

/-- The next step is a tick, and it is not refused: no host call waits and `phase = RUNNING` (R189). -/
def readyToTick (s : State) : State := { s with hostCalls := [], initDone := true, resetDone := true, shutDown := false }

/-- An instruction's word stored where the next tick reads it (log 14, log 15); the bits above `nbits` are no part of it. -/
def placeWord (s : State) (nbits w : Nat) : State :=
  let w := w % 2 ^ nbits
  match tableFormat w with
  | .state4 => (readyToTick s).onBlock fun b => { b with state := BitVec.ofNat 4 w }
  | .opByte8 => (readyToTick s).onBlock fun b => { b with state := 1, bus := BitVec.ofNat 8 w }

end Sys2Proof.Machine
end

