-- ==== Sys2Proof/Machine/Step.lean ====
section
/-! DEFINITION. One step: the host's next call of the control surface (R7b, R190), which is one Tick (R7a, R110) or another
operation. -/

namespace Sys2Proof.Machine

/-- One step of the machine. -/
def step (s : State) : Host.Outcome State Fault Refusal :=
  match nextCall s with
  | .op o => perform o (afterNextCall s)
  | .tick => exec (fetchInstr s) (afterNextCall s)

/-- The state with the instruction of word `w` stored where the next step reads it: a state code in the state register
(R90), an opcode byte in `bus` with DECODE captured (R96), no host call waiting and `phase = RUNNING` (log 15). -/
def State.withFetchWord (s : State) (nbits w : Nat) : State := placeWord s nbits w

end Sys2Proof.Machine
end

