-- ==== Sys2Proof/Safety.lean ====
section
/-! DEFINITION. The terms claims are stated in: the invariant of the machine, when the collaborators' scripted answers keep
their contract, what a load gives, what a completed tick leaves, when a tick comes to its event hook, and how a write that is
not admitted stops. -/

namespace Sys2Proof.Machine

/-- The invariant of the machine: the state register holds a defined code (R94), the RAM contents are in canonical form
(R74), and a session that was shut down had been initialised (R183). -/
abbrev State.Inv (s : State) : Prop :=
  legalCode s.block.state = true ∧ Memory.wf s.mem = true ∧ (s.shutDown = true → s.initDone = true)

/-- The machine did not stop. -/
def completes (r : Result) : Bool :=
  match r with
  | .next _ => true
  | .fault _ => false
  | .refused _ => false

/-- The state a result goes on with, if it does. -/
def nextOf (r : Result) : Option State :=
  match r with
  | .next s => some s
  | .fault _ => none
  | .refused _ => none

/-- The fault a result stops with, if it does. -/
def faultOf (r : Result) : Option Fault :=
  match r with
  | .next _ => none
  | .fault x => some x
  | .refused _ => none

/-- The refusal a result stops with, if it does. -/
def refusalOf (r : Result) : Option Refusal :=
  match r with
  | .next _ => none
  | .fault _ => none
  | .refused x => some x

/-- A run of so many steps (92_eei_decisions.md D19). -/
def steps : Nat → State → Result
  | 0, s => .next s
  | n + 1, s => andThen (step s) (steps n)

/-- The answer returns, and makes only writes the rules admit of that writer (R40, R41, R187). -/
def CallAnswer.okFor (who : Writer) : CallAnswer → Bool
  | .hangs => false
  | .returns ws => ws.all (admits who)

/-- The next calls, made by these writers in this order, are answered within the contract: each scripted answer that meets
one of them is `okFor` it. (Where no answer is scripted the free answer keeps the contract, log 3.) -/
def answersOk : List Writer → List CallAnswer → Bool
  | [], _ => true
  | _ :: _, [] => true
  | who :: more, a :: rest => a.okFor who && answersOk more rest

/-- The next load, at this address, is answered (R80). -/
def loadOk (s : State) (addr : Word) : Bool := inRam s.ram addr || decide (s.loads.head? ≠ some .hangs)

/-- The next store, at this address, is answered (R80). -/
def storeOk (s : State) (addr : Word) : Bool := inRam s.ram addr || decide (s.stores.head? ≠ some .hangs)

/-- The byte the Memory Port gives for the next load at this address (R62, R74), `n` free values having been drawn. -/
def loadedByte (s : State) (n : Nat) (addr : Word) : Byte :=
  if inRam s.ram addr then Memory.read s.mem addr.toNat
  else match s.loads with
    | [] => Config.freeByte n addr
    | .hangs :: _ => 0
    | .byte v :: _ => v

/-- The event deadline is reached or passed by the cycle a tick from this state counts (R116). -/
def deadlineReached (s : State) : Bool := eventDue { s.block with cycles := s.block.cycles + 1 }

/-- The call of `processEvents` that a tick makes where its deadline is reached (R116). -/
def eventCaller (due : Bool) : List Writer := if due then [.processEvents] else []

/-- Its event in the port trace (R11, R120). -/
def eventTrace (due : Bool) : List Event := if due then [.processEvents] else []

/-- The event is a call of a handler or a hook, and takes the next answer. -/
def Event.isCall : Event → Bool
  | .load _ => false
  | .store _ _ => false
  | .exec _ => true
  | .setIE _ => true
  | .processEvents => true
  | .resetHook => true
  | .initMaster => true
  | .initSlot _ => true
  | .deinitMaster => true
  | .deinitSlot _ => true

/-- The scripted answers left when these port calls have been made, each handler or hook having taken one. -/
def answersAfter : List CallAnswer → List Event → List CallAnswer
  | answers, [] => answers
  | answers, e :: es => answersAfter (if e.isCall then answers.tail else answers) es

/-- The writes an answer makes; a call that never returns makes none. -/
def CallAnswer.writes : CallAnswer → List BlockWrite
  | .hangs => []
  | .returns ws => ws

/-- What the event check may leave of a block (R41, R116): nothing changes where the deadline is not reached; otherwise the
hook may have written `nextEvent` and `halted`, and set the interrupt latch by RaiseIRQ. -/
def AfterEvent (due : Bool) (before after : Block) : Prop :=
  after = { before with
    nextEvent := after.nextEvent, halted := after.halted, irqPending := after.irqPending, irqVector := after.irqVector } ∧
  (due = false → after = before) ∧
  (after.irqPending = true ∨ after.irqPending = before.irqPending ∧ after.irqVector = before.irqVector)

/-- Everything outside the block, the memory and the record of port calls is as it was. -/
def SameSession (s t : State) : Prop :=
  t.initDone = s.initDone ∧ t.resetDone = s.resetDone ∧ t.shutDown = s.shutDown ∧ t.dispatch = s.dispatch ∧
  t.master = s.master ∧ t.slots = s.slots ∧ t.ram = s.ram ∧ t.hostCalls = s.hostCalls

/-- Every byte of memory reads as it did. -/
def SameMemory (s t : State) : Prop := ∀ addr, Memory.read t.mem addr = Memory.read s.mem addr

/-- The event hook's writes are made (R116, R117): those of its scripted answer where one stands next, or else its free ones,
the last free value drawn, those the rules admit (log 3). -/
def HookWrites (due : Bool) (answers : List CallAnswer) (before : Block) (t : State) : Prop :=
  (∀ ws rest, due = true → answers = .returns ws :: rest → t.block = applyWrites ws before) ∧
  (due = true → answers = [] → ∃ n, t.draws = n + 1 ∧
    t.block = applyWrites ((Config.freeWrites n .processEvents before).filter eventHookMay) before)

/-- A tick from `s` completed in `t`: step 3 left the block `b`, made these port calls, and changed nothing else; the event
check followed, with the answer that stood next after those calls (R110, R116, R120). -/
def TickLeaves (s : State) (b : Block) (calls : List Event) (t : State) : Prop :=
  AfterEvent (eventDue b) b t.block ∧ HookWrites (eventDue b) (answersAfter s.answers calls) b t ∧
  t.trace = s.trace ++ calls ++ eventTrace (eventDue b) ∧
  t.answers = answersAfter s.answers (calls ++ eventTrace (eventDue b)) ∧ SameSession s t

/-- The port calls step 3 of an instruction's tick makes (R66, R120). -/
def portCalls (i : Instr) (s : State) : List Event :=
  match i with
  | .fetch => if s.block.irqPending then [.setIE false, .load (zext16 s.block.irqVector)] else [.load s.block.pc]
  | .decode => []
  | .execute =>
    match s.block.ir with
    | none => []
    | some h => [.exec h]
  | .slot3 => []
  | .memoryLoad => [.load s.block.index]
  | .memoryStore => [.store s.block.index s.block.bus]
  | .readPc => [.load s.block.pc]
  | .memoryMoveIndexLoad => []
  | .memoryMoveIndexStore => []
  | .readPcStall => []
  | .stall => []
  | .illegalState11 => []
  | .illegalState12 => []
  | .illegalState13 => []
  | .illegalState14 => []
  | .illegalState15 => []
  | .dispatch _ => []

/-- The scripted answers left for the event hook of an instruction's tick. -/
def hookAnswers (i : Instr) (s : State) : List CallAnswer := answersAfter s.answers (portCalls i s)

/-- The block an EXECUTE tick leaves its handler to write to (R135). -/
def handlerView (b : Block) : Block := { b with cycles := b.cycles + 1, state := 3 }

/-- The tick of the instruction comes to the event hook: it runs, the port calls of step 3 are answered within the contract, and
the deadline is then reached (R110, R116). An unscripted handler leaves no script for the hook, so EXECUTE asks a scripted
one here. -/
def reachesEventHook (i : Instr) (s : State) : Bool :=
  s.running &&
  match i with
  | .fetch =>
    if s.block.irqPending then
      answersOk [.setInterruptsEnabled] s.answers && loadOk s (zext16 s.block.irqVector) && deadlineReached s
    else loadOk s s.block.pc && deadlineReached s
  | .decode => deadlineReached s
  | .execute =>
    match s.block.ir, s.answers with
    | some _, .returns ws :: _ => ws.all handlerMay && eventDue (applyWrites ws (handlerView s.block))
    | _, _ => false
  | .slot3 => deadlineReached s
  | .memoryLoad => loadOk s s.block.index && deadlineReached s
  | .memoryStore => storeOk s s.block.index && deadlineReached s
  | .readPc => loadOk s s.block.pc && deadlineReached s
  | .memoryMoveIndexLoad => deadlineReached s
  | .memoryMoveIndexStore => deadlineReached s
  | .readPcStall => deadlineReached s
  | .stall => deadlineReached s
  | .illegalState11 => false
  | .illegalState12 => false
  | .illegalState13 => false
  | .illegalState14 => false
  | .illegalState15 => false
  | .dispatch _ => deadlineReached s

/-- How a write `w` that is not admitted stops (R42, R94): ILLEGAL_STATE for an illegal state code, whoever writes it, and
FORBIDDEN_WRITE otherwise, with the port trace up to the call that made it. -/
def StopsAtBadWrite (r : Result) (who : Writer) (w : BlockWrite) (trace : List Event) : Prop :=
  (∀ c, w = .state c → 11 ≤ c.toNat → r = .fault (.illegalState c (some who) trace)) ∧
  ((∀ c, w = .state c → c.toNat ≤ 10) → r = .fault (.forbiddenWrite w.field who trace))

/-- The `init` calls Initialize makes over the slots, in slot order from slot `i` on: each event and its caller (R182). -/
def initCalls : Nat → List (Option Component) → List (Event × Writer)
  | _, [] => []
  | i, none :: rest => initCalls (i + 1) rest
  | i, some c :: rest => (if c.hasInit then [(.initSlot i, .componentInit c)] else []) ++ initCalls (i + 1) rest

/-- All the calls Initialize makes, the master's first (R182). -/
def initializeCalls (s : State) : List (Event × Writer) :=
  (if s.master.hasInit then [(.initMaster, .componentInit s.master)] else []) ++ initCalls 0 s.slots

/-- The `deinit` calls Shutdown makes over the slots, in slot order from slot `i` on (R183). -/
def deinitCalls : Nat → List (Option Component) → List (Event × Writer)
  | _, [] => []
  | i, none :: rest => deinitCalls (i + 1) rest
  | i, some c :: rest => (if c.hasDeinit then [(.deinitSlot i, .componentDeinit c)] else []) ++ deinitCalls (i + 1) rest

/-- All the calls Shutdown makes, the master's first (R183). -/
def shutdownCalls (s : State) : List (Event × Writer) :=
  (if s.master.hasDeinit then [(.deinitMaster, .componentDeinit s.master)] else []) ++ deinitCalls 0 s.slots

/-- Component hooks may only have called RaiseIRQ (R187): the latch is as it was, or set. -/
def LatchOnly (before after : Block) : Prop :=
  after = { before with irqPending := after.irqPending, irqVector := after.irqVector } ∧
  (after.irqPending = true ∨ after.irqPending = before.irqPending ∧ after.irqVector = before.irqVector)

end Sys2Proof.Machine
end

