-- ==== Sys2Proof/Certificates/Slice0/Obligations.lean ====
section
/-! DEFINITION. The statements for the provers, from the numbered rules of spec/. `TickLeaves s b calls t` (Safety.lean) says
that a tick from `s` ended in `t`: step 3 left the block `b` (every field of it, so the frame too), the port calls were
`calls`, nothing else of the session changed, and the event check of R116 followed, its hook's writes made. A fault's last
argument is the port trace up to the stop (R11, log 19). -/

open Sys2Proof Sys2Proof.Machine

/-! ### The ring states and the dispatch -/

/-- R130. FETCH with no interrupt pending completes: `bus` holds the byte the Memory Port gives for `pc`, `pc` is not advanced,
the next state is DECODE, and nothing else changes but by the event hook. -/
def Obligations.FetchLoadsAtPc : Prop :=
  ∀ s : State, s.running = true → s.block.irqPending = false → loadOk s s.block.pc = true →
    answersOk (eventCaller (deadlineReached s)) s.answers = true →
    ∃ t, exec .fetch s = .next t ∧
      TickLeaves s
        { s.block with cycles := s.block.cycles + 1, state := 1, bus := loadedByte s s.draws s.block.pc }
        [.load s.block.pc] t ∧
      SameMemory s t

/-- R131, R132, R214 (which free byte an unscripted load gives after an unscripted hook is the model's: log 3, log 4). FETCH
with an interrupt pending completes whatever else holds: `pc` is the zero-extended vector, the
Interrupt Port is told to disable interrupts, the byte at the vector is loaded, and no cycle is added. The latch is consumed,
unless the disabling hook raises again (then with its vector). -/
def Obligations.FetchTakesPendingInterrupt : Prop :=
  ∀ s : State, s.running = true → s.block.irqPending = true → loadOk s (zext16 s.block.irqVector) = true →
    answersOk (.setInterruptsEnabled :: eventCaller (deadlineReached s)) s.answers = true →
    ∃ t pending vector, exec .fetch s = .next t ∧
      TickLeaves s
        { s.block with
          cycles := s.block.cycles + 1, state := 1, pc := zext16 s.block.irqVector,
          bus := loadedByte s (s.draws + if s.answers.isEmpty then 1 else 0) (zext16 s.block.irqVector),
          irqPending := pending, irqVector := vector }
        [.setIE false, .load (zext16 s.block.irqVector)] t ∧
      (pending = true ∨ pending = false ∧ vector = s.block.irqVector) ∧
      (∀ rest, s.answers = .returns [] :: rest → pending = false ∧ vector = s.block.irqVector) ∧
      (∀ v rest, s.answers = .returns [.raiseIRQ v] :: rest → pending = true ∧ vector = v) ∧
      SameMemory s t

/-- R215. Interrupt entry saves nothing: beside what every tick writes (`cycles`, `state`) and the event hook may write
(`nextEvent`, `halted`, and those only where its deadline is reached), it changes only `pc`, `bus` and the latch. -/
def Obligations.InterruptEntrySavesNothing : Prop :=
  ∀ s t : State, s.block.irqPending = true → exec .fetch s = .next t →
    t.block = { s.block with
      pc := zext16 s.block.irqVector, bus := t.block.bus, irqPending := t.block.irqPending,
      irqVector := t.block.irqVector, cycles := s.block.cycles + 1, state := 1, nextEvent := t.block.nextEvent,
      halted := t.block.halted } ∧
    (deadlineReached s = false → t.block.nextEvent = s.block.nextEvent ∧ t.block.halted = s.block.halted) ∧
    t.block.pc.toNat ≤ 0xFF

/-- R133. DECODE completes: the handler selected by the byte in `bus` is latched in `IR`, `pc` advances by one modulo 2^16,
the next state is EXECUTE, and no port is called. -/
def Obligations.DecodeSelectsHandler : Prop :=
  ∀ s : State, s.running = true → answersOk (eventCaller (deadlineReached s)) s.answers = true →
    ∃ t, exec .decode s = .next t ∧
      TickLeaves s
        { s.block with
          cycles := s.block.cycles + 1, state := 2, ir := some (dispatchEntry s s.block.bus), pc := s.block.pc + 1 }
        [] t ∧
      SameMemory s t

/-- R96, R97, R133 (that the table's row is a tick of its own, the DECODE tick with `op` in `bus`, is the model's reading:
log 16). `DISPATCH[op]` completes for every one of the 256 opcode values: the entry `op` of the table is latched in
`IR` and `pc` advances; and it is what DECODE does when the byte in `bus` is `op`. -/
def Obligations.DispatchSelectsEntry : Prop :=
  ∀ (s : State) (op : Byte),
    (s.running = true → answersOk (eventCaller (deadlineReached s)) s.answers = true →
      ∃ t, exec (.dispatch op) s = .next t ∧
        TickLeaves s
          { s.block with
            cycles := s.block.cycles + 1, state := 2, ir := some (s.dispatch.get op.toFin), pc := s.block.pc + 1 }
          [] t ∧
        SameMemory s t) ∧
    (s.block.bus = op → exec .decode s = exec (.dispatch op) s)

/-- R134, R40. EXECUTE completes where the latched handler makes admitted writes: they are applied in order to the block the
handler was called with, which already holds this tick's `cycles` and the auto-advanced state 3. -/
def Obligations.ExecuteAppliesHandlerWrites : Prop :=
  ∀ (s : State) (h : HandlerRef) (ws : List BlockWrite) (rest : List CallAnswer), s.running = true →
    s.block.ir = some h → s.answers = .returns ws :: rest → ws.all handlerMay = true →
    answersOk
      (eventCaller (eventDue (applyWrites ws { s.block with cycles := s.block.cycles + 1, state := 3 }))) rest = true →
    ∃ t, exec .execute s = .next t ∧
      TickLeaves s (applyWrites ws { s.block with cycles := s.block.cycles + 1, state := 3 }) [.exec h] t ∧
      SameMemory s t

/-- R134, R135 (the form of the free answer is the model's: log 3). EXECUTE of a handler whose answer is not scripted
completes: the handler's free writes are a function of the block as R135 says it sees it, `cycles` incremented and `state` 3,
and those the rules admit are applied to it. -/
def Obligations.ExecuteCallsHandlerOnItsView : Prop :=
  ∀ (s : State) (h : HandlerRef), s.running = true → s.block.ir = some h → s.answers = [] →
    ∃ t, exec .execute s = .next t ∧
      TickLeaves s
        (applyWrites
          ((Config.freeWrites s.draws (.handler h)
            { s.block with cycles := s.block.cycles + 1, state := 3 }).filter handlerMay)
          { s.block with cycles := s.block.cycles + 1, state := 3 })
        [.exec h] t ∧
      SameMemory s t

/-- R134, R200. EXECUTE with a null instruction register is the fault NULL_HANDLER, number 1, which records the `cycles` of the
tick; no port event is added to the trace. -/
def Obligations.ExecuteNullHandlerFaults : Prop :=
  ∀ s : State, s.running = true → s.block.ir = none →
    exec .execute s = .fault (.nullHandler (s.block.cycles + 1) s.trace) ∧
    (Fault.nullHandler (s.block.cycles + 1) s.trace).code = some 1

/-- R115. A write of `state` by the handler wins over the auto-advance, the last one standing. -/
def Obligations.HandlerStateWriteWins : Prop :=
  ∀ (s t : State) (h : HandlerRef) (pre post : List BlockWrite) (c : StateCode) (rest : List CallAnswer),
    s.block.ir = some h → s.answers = .returns (pre ++ .state c :: post) :: rest →
    (∀ w ∈ post, w.field ≠ .state) → exec .execute s = .next t → t.block.state = c

/-- R172, R94. A handler's write of a code 11 to 15 to `state` is the fault ILLEGAL_STATE, recording the code and the writer,
whatever admitted writes came before it and whatever the event deadline; the trace ends in `Exec(h)`. -/
def Obligations.HandlerIllegalStateFaults : Prop :=
  ∀ (s : State) (h : HandlerRef) (pre post : List BlockWrite) (c : StateCode) (rest : List CallAnswer),
    s.running = true → s.block.ir = some h → s.answers = .returns (pre ++ .state c :: post) :: rest →
    pre.all handlerMay = true → 11 ≤ c.toNat →
    exec .execute s = .fault (.illegalState c (some (.handler h)) (s.trace ++ [.exec h]))

/-- R42 (that `IR` may not be set to null and the pending flag not set but through RaiseIRQ is inferred from R40: log 13).
A handler's write of `cycles`, of the pending flag, of the vector or of a null `IR` is the fault FORBIDDEN_WRITE, recording
the field and the writer. -/
def Obligations.HandlerForbiddenWriteFaults : Prop :=
  ∀ (s : State) (h : HandlerRef) (pre post : List BlockWrite) (rest : List CallAnswer) (w : BlockWrite),
    s.running = true → s.block.ir = some h → s.answers = .returns (pre ++ w :: post) :: rest →
    pre.all handlerMay = true →
    ((∃ v, w = .cycles v) ∨ (∃ v, w = .irqPending v) ∨ (∃ v, w = .irqVector v) ∨ w = .ir none) →
    exec .execute s = .fault (.forbiddenWrite w.field (.handler h) (s.trace ++ [.exec h]))

/-- R136. SLOT3 completes and does nothing: the next state is FETCH. -/
def Obligations.Slot3DoesNothing : Prop :=
  ∀ s : State, s.running = true → answersOk (eventCaller (deadlineReached s)) s.answers = true →
    ∃ t, exec .slot3 s = .next t ∧
      TickLeaves s { s.block with cycles := s.block.cycles + 1, state := 0 } [] t ∧ SameMemory s t

/-! ### The memory phase and the stalls -/

/-- R150. MEMORY_LOAD completes: exactly one load, at `index`, into `bus`; `pc` and `index` unchanged; DECODE next. -/
def Obligations.MemoryLoadReadsIndex : Prop :=
  ∀ s : State, s.running = true → loadOk s s.block.index = true →
    answersOk (eventCaller (deadlineReached s)) s.answers = true →
    ∃ t, exec .memoryLoad s = .next t ∧
      TickLeaves s
        { s.block with cycles := s.block.cycles + 1, state := 1, bus := loadedByte s s.draws s.block.index }
        [.load s.block.index] t ∧
      SameMemory s t

/-- R151 (that a RAM address keeps the byte is R74's deterministic oracle: log 5). MEMORY_STORE completes: exactly one store,
of `bus` at `index`; no field of the block changes but by the frame; EXECUTE next. Where the platform is plain RAM the byte at
`index` becomes `bus`; every other byte of memory reads as before. -/
def Obligations.MemoryStoreWritesIndex : Prop :=
  ∀ s : State, s.running = true → storeOk s s.block.index = true → Memory.wf s.mem = true →
    answersOk (eventCaller (deadlineReached s)) s.answers = true →
    ∃ t, exec .memoryStore s = .next t ∧
      TickLeaves s { s.block with cycles := s.block.cycles + 1, state := 2 } [.store s.block.index s.block.bus] t ∧
      (∀ addr, addr ≠ s.block.index.toNat → Memory.read t.mem addr = Memory.read s.mem addr) ∧
      (inRam s.ram s.block.index = true → Memory.read t.mem s.block.index.toNat = s.block.bus) ∧
      (inRam s.ram s.block.index = false → SameMemory s t)

/-- R152. READ_PC completes: the byte at `pc` is loaded into `bus`, `pc` advances by one modulo 2^16, and READ_PC_STALL is
forced over the auto-advance. -/
def Obligations.ReadPcLoadsAndAdvances : Prop :=
  ∀ s : State, s.running = true → loadOk s s.block.pc = true →
    answersOk (eventCaller (deadlineReached s)) s.answers = true →
    ∃ t, exec .readPc s = .next t ∧
      TickLeaves s
        { s.block with
          cycles := s.block.cycles + 1, state := 9, bus := loadedByte s s.draws s.block.pc, pc := s.block.pc + 1 }
        [.load s.block.pc] t ∧
      SameMemory s t

/-- R153, R154. MEMORY_MOVE_INDEX_LOAD and MEMORY_MOVE_INDEX_STORE complete: they force MEMORY_LOAD and MEMORY_STORE over the
auto-advance, call no port and change nothing else. -/
def Obligations.MoveIndexRedirects : Prop :=
  ∀ s : State, s.running = true → answersOk (eventCaller (deadlineReached s)) s.answers = true →
    (∃ t, exec .memoryMoveIndexLoad s = .next t ∧
      TickLeaves s { s.block with cycles := s.block.cycles + 1, state := 4 } [] t ∧ SameMemory s t) ∧
    (∃ t, exec .memoryMoveIndexStore s = .next t ∧
      TickLeaves s { s.block with cycles := s.block.cycles + 1, state := 5 } [] t ∧ SameMemory s t)

/-- R170, R171. READ_PC_STALL and STALL complete and do nothing: EXECUTE and SLOT3 are next. -/
def Obligations.StallsDoNothing : Prop :=
  ∀ s : State, s.running = true → answersOk (eventCaller (deadlineReached s)) s.answers = true →
    (∃ t, exec .readPcStall s = .next t ∧
      TickLeaves s { s.block with cycles := s.block.cycles + 1, state := 2 } [] t ∧ SameMemory s t) ∧
    (∃ t, exec .stall s = .next t ∧
      TickLeaves s { s.block with cycles := s.block.cycles + 1, state := 3 } [] t ∧ SameMemory s t)

/-- R172, R94, R200 (that a captured code faults too, with no writer recorded, is the model's: log 12). The five illegal codes
stop with the fault ILLEGAL_STATE, number 2. -/
def Obligations.IllegalCodesFault : Prop :=
  ∀ s : State, s.running = true →
    exec .illegalState11 s = .fault (.illegalState 11 none s.trace) ∧
    exec .illegalState12 s = .fault (.illegalState 12 none s.trace) ∧
    exec .illegalState13 s = .fault (.illegalState 13 none s.trace) ∧
    exec .illegalState14 s = .fault (.illegalState 14 none s.trace) ∧
    exec .illegalState15 s = .fault (.illegalState 15 none s.trace) ∧
    ∀ (c : StateCode) (w : Option Writer), (Fault.illegalState c w s.trace).code = some 2

/-! ### The tick frame, over all instructions -/

/-- R93. The final next state of every legal code, where the handler of an EXECUTE tick writes no `state`. -/
def Obligations.SuccessorOfEveryState : Prop :=
  ∀ s t : State, nextCall s = .tick → legalCode s.block.state = true →
    (s.block.state = 2 → ∃ ws rest, s.answers = .returns ws :: rest ∧ ∀ w ∈ ws, w.field ≠ .state) →
    step s = .next t →
    t.block.state = ([1, 2, 3, 0, 1, 2, 9, 4, 5, 2, 3] : List StateCode).getD s.block.state.toNat 0

/-- R111 at the counter width 32, the spec's default of W_CYC (log 6). Every tick increments `cycles` by exactly one, modulo
2^32. -/
def Obligations.CyclesCountTicks : Prop :=
  ∀ (i : Instr) (s t : State), exec i s = .next t →
    t.block.cycles.toNat = (s.block.cycles.toNat + 1) % 2 ^ 32

/-- R116, R117 (the form of an unscripted handler's writes is the model's: log 3). A tick calls `processEvents` exactly once
where the incremented `cycles` has reached the deadline as step 3 leaves it, and not at all otherwise: outside EXECUTE that is
the deadline the tick began with, in EXECUTE the one the handler's writes leave. What the hook writes stands: a RaiseIRQ sets
the latch, a new `nextEvent` and `halted` are kept. -/
def Obligations.EventHookAtDeadline : Prop :=
  ∀ (i : Instr) (s t : State), exec i s = .next t → ∃ due : Bool,
    t.trace.count .processEvents = s.trace.count .processEvents + (if due then 1 else 0) ∧
    (due = false → eventDue t.block = false) ∧
    (i ≠ .execute → (due = true ↔ s.block.nextEvent.toNat ≤ (s.block.cycles + 1).toNat)) ∧
    (i = .execute → ∀ h, s.block.ir = some h →
      (∀ ws rest, s.answers = .returns ws :: rest →
        (due = true ↔
          (applyWrites ws (handlerView s.block)).nextEvent.toNat ≤ (s.block.cycles + 1).toNat)) ∧
      (s.answers = [] →
        (due = true ↔
          (applyWrites ((Config.freeWrites s.draws (.handler h) (handlerView s.block)).filter handlerMay)
            (handlerView s.block)).nextEvent.toNat ≤ (s.block.cycles + 1).toNat))) ∧
    (due = true → ∀ ws rest, hookAnswers i s = .returns ws :: rest →
      t.answers = rest ∧
      (∀ v, ws = [.raiseIRQ v] → t.block.irqPending = true ∧ t.block.irqVector = v) ∧
      (∀ n, ws = [.nextEvent n] → t.block.nextEvent = n) ∧
      (∀ x, ws = [.halted x] → t.block.halted = x))

/-- R119, R111 at the counter width 32, the spec's default of W_CYC (log 6). With no host operation queued, N ticks from a
state whose cycle counter is 0, as Reset leaves it, end with the counter at N modulo 2^32. -/
def Obligations.CyclesCountFromReset : Prop :=
  ∀ (n : Nat) (s t : State), s.hostCalls = [] → s.block.cycles = 0 → steps n s = .next t →
    t.block.cycles.toNat = n % 2 ^ 32

/-- R118 at the counter width 32, the spec's default of W_CYC (log 6). The comparison is not modular: in any tick in which
`cycles` wraps to 0 below a deadline that is not 0, no event hook is called. In EXECUTE the deadline is the one a scripted
handler's writes leave. SLOT3 is one tick in which that happens. -/
def Obligations.WrapDoesNotReachDeadline : Prop :=
  ∀ s : State, s.block.cycles = 0xFFFFFFFF →
    (∀ (i : Instr) (t : State), exec i s = .next t →
      (i ≠ .execute → s.block.nextEvent ≠ 0) →
      (i = .execute → ∃ ws rest, s.answers = .returns ws :: rest ∧
        (applyWrites ws (handlerView s.block)).nextEvent ≠ 0) →
      t.block.cycles = 0 ∧ t.trace.count .processEvents = s.trace.count .processEvents) ∧
    (s.running = true → s.block.nextEvent ≠ 0 →
      exec .slot3 s = .next { s with block := { s.block with cycles := 0, state := 0 } })

/-- R120, R66 (that a RaiseIRQ is no event of the trace is read from R11: log 8). The port events of a tick:
`SetIE(false)` only at a FETCH with an interrupt pending, then at most one load or store, then at most one `Exec`, then
`ProcessEvents`; exactly the four memory micro-states call the Memory Port, and no tick both calls it and runs a handler.
-/
def Obligations.PortTraceOrder : Prop :=
  ∀ (i : Instr) (s t : State), exec i s = .next t → ∃ ie mem ex pe : List Event,
    t.trace = s.trace ++ ie ++ mem ++ ex ++ pe ∧
    (ie = if i = .fetch ∧ s.block.irqPending = true then [.setIE false] else []) ∧
    (mem = [] ∨ (∃ a, mem = [.load a]) ∨ (∃ a v, mem = [.store a v])) ∧
    (ex = [] ∨ ∃ h, ex = [.exec h]) ∧
    (pe = [] ∨ pe = [.processEvents]) ∧
    (mem ≠ [] ↔ i = .fetch ∨ i = .memoryLoad ∨ i = .memoryStore ∨ i = .readPc) ∧
    (mem ≠ [] → ex = [])

/-- R25, R26, R28, R29. Outside EXECUTE a tick writes no register pair, nor `sp`, nor `index`; only FETCH with an interrupt
pending, DECODE and READ_PC write `pc`; only DECODE writes `IR`; only FETCH, MEMORY_LOAD and READ_PC write `bus`. -/
def Obligations.WhoWritesTheRegisters : Prop :=
  ∀ s t : State, nextCall s = .tick → s.block.state ≠ 2 → step s = .next t →
    (t.block.a = s.block.a ∧ t.block.flags = s.block.flags ∧ t.block.bc = s.block.bc ∧ t.block.de = s.block.de ∧
      t.block.hl = s.block.hl ∧ t.block.sp = s.block.sp ∧ t.block.index = s.block.index) ∧
    (s.block.state ≠ 1 → s.block.state ≠ 6 → (s.block.state = 0 → s.block.irqPending = false) →
      t.block.pc = s.block.pc) ∧
    (s.block.state ≠ 1 → t.block.ir = s.block.ir) ∧
    (s.block.state ≠ 0 → s.block.state ≠ 4 → s.block.state ≠ 6 → t.block.bus = s.block.bus)

/-- R34. A pending interrupt stays pending through every step, tick or host operation, but the tick that captures FETCH. -/
def Obligations.PendingClearedOnlyAtFetch : Prop :=
  ∀ s t : State, step s = .next t → s.block.irqPending = true → (nextCall s = .tick → s.block.state ≠ 0) →
    t.block.irqPending = true

/-- R37, R185. No step changes the dispatcher table or the RAM regions, and only AttachComponents changes the master or the
slots. -/
def Obligations.ConfigurationStaysFixed : Prop :=
  ∀ s t : State, step s = .next t → t.dispatch = s.dispatch ∧ t.ram = s.ram ∧
    ((∀ m slots, nextCall s ≠ .op (.attachComponents m slots)) → t.master = s.master ∧ t.slots = s.slots)

/-- R94, R74, R183. Every step, whatever the instruction or host operation and whatever the collaborators answer, keeps the
invariant: a defined state code, the RAM contents in canonical form, no Shutdown without Initialize. -/
def Obligations.StepKeepsInvariant : Prop :=
  ∀ s t : State, s.Inv → step s = .next t → t.Inv

/-- The invariant holds right after reset. -/
def Obligations.ResetStateHasInvariant : Prop := State.reset.Inv

/-- R110, R201. Outside `phase = RUNNING` every tick is refused. -/
def Obligations.TickOutsideRunningRefused : Prop :=
  ∀ (i : Instr) (s : State), (s.initDone = false ∨ s.resetDone = false ∨ s.shutDown = true) →
    exec i s = .refused .lifecycle

/-- R238. Outside EXECUTE, and where the tick calls no hook, the `halted` flag has no influence on a tick. -/
def Obligations.HaltedDoesNotMatter : Prop :=
  ∀ (i : Instr) (s : State) (halted : Bool), i ≠ .execute → deadlineReached s = false →
    (i = .fetch → s.block.irqPending = false) →
    exec i (s.onBlock fun b => { b with halted := halted }) =
      andThen (exec i s) fun t => .next (t.onBlock fun b => { b with halted := halted })

/-- R78. DECODE does not read memory: with other RAM contents, a store to the opcode's address after FETCH say, the same
handler is selected and the same state is reached. -/
def Obligations.DecodeIgnoresMemory : Prop :=
  ∀ (s : State) (mem : List Host.Cell),
    exec .decode { s with mem := mem } = andThen (exec .decode s) fun t => .next { t with mem := mem }

/-- R78, R74, R270 (for an address that is plain RAM: log 5). A byte stored by MEMORY_STORE is what every later MEMORY_LOAD,
FETCH and READ_PC of that address loads, after any steps that store nothing there, ticks and host operations alike; with no
step in between the next MEMORY_LOAD loads it whatever else holds. -/
def Obligations.StoreSeenByLaterReads : Prop :=
  ∀ s t : State, Memory.wf s.mem = true → inRam s.ram s.block.index = true → exec .memoryStore s = .next t →
    (∀ u, exec .memoryLoad t = .next u → u.block.bus = s.block.bus) ∧
    ∀ (n : Nat) (v : State) (between : List Event), steps n t = .next v → v.trace = t.trace ++ between →
      (∀ x, .store s.block.index x ∉ between) →
      (∀ u, v.block.index = s.block.index → exec .memoryLoad v = .next u → u.block.bus = s.block.bus) ∧
      (∀ u, v.block.pc = s.block.index → exec .readPc v = .next u → u.block.bus = s.block.bus) ∧
      (∀ u, v.block.pc = s.block.index → v.block.irqPending = false → exec .fetch v = .next u →
        u.block.bus = s.block.bus) ∧
      (∀ u, zext16 v.block.irqVector = s.block.index → v.block.irqPending = true → exec .fetch v = .next u →
        u.block.bus = s.block.bus)

/-- R80, R203 (the stop's name is the model's: log 17). A callback that never returns leaves no next state: the step stops as a
hang of that callee, with the trace up to the call. It says so of the handler at EXECUTE, of the disabling hook at FETCH, of
the load and the store of every micro-state that makes one, of `processEvents` at every tick that comes to it, of the reset
hook, and of every component hook of Initialize, Shutdown and the hotplug operations. -/
def Obligations.HangLeavesNoNextState : Prop :=
  ∀ s : State,
    (s.running = true →
      (∀ h rest, s.block.ir = some h → s.answers = .hangs :: rest →
        exec .execute s = .fault (.hang (.hook (.handler h)) (s.trace ++ [.exec h]))) ∧
      (∀ rest, s.block.irqPending = true → s.answers = .hangs :: rest →
        exec .fetch s = .fault (.hang (.hook .setInterruptsEnabled) (s.trace ++ [.setIE false]))) ∧
      (∀ rest, s.loads = .hangs :: rest →
        (s.block.irqPending = false → inRam s.ram s.block.pc = false →
          exec .fetch s = .fault (.hang .memoryLoad (s.trace ++ [.load s.block.pc]))) ∧
        (s.block.irqPending = true → answersOk [.setInterruptsEnabled] s.answers = true →
          inRam s.ram (zext16 s.block.irqVector) = false →
          exec .fetch s =
            .fault (.hang .memoryLoad (s.trace ++ [.setIE false, .load (zext16 s.block.irqVector)]))) ∧
        (inRam s.ram s.block.index = false →
          exec .memoryLoad s = .fault (.hang .memoryLoad (s.trace ++ [.load s.block.index]))) ∧
        (inRam s.ram s.block.pc = false →
          exec .readPc s = .fault (.hang .memoryLoad (s.trace ++ [.load s.block.pc])))) ∧
      (∀ rest, inRam s.ram s.block.index = false → s.stores = .hangs :: rest →
        exec .memoryStore s = .fault (.hang .memoryStore (s.trace ++ [.store s.block.index s.block.bus])))) ∧
    (∀ i rest, reachesEventHook i s = true → hookAnswers i s = .hangs :: rest →
      exec i s = .fault (.hang (.hook .processEvents) (s.trace ++ portCalls i s ++ [.processEvents]))) ∧
    (s.shutDown = false →
      (∀ rest, s.answers = .hangs :: rest →
        perform .callReset s = .fault (.hang (.hook .resetHook) (s.trace ++ [.resetHook])) ∧
        (∀ i c, s.slots[i]? = some (some c) →
          (c.hasInit = true → perform (.hotplugAttach i) s =
            .fault (.hang (.hook (.componentInit c)) (s.trace ++ [.initSlot i]))) ∧
          (c.hasDeinit = true → perform (.hotplugDetach i) s =
            .fault (.hang (.hook (.componentDeinit c)) (s.trace ++ [.deinitSlot i]))))) ∧
      (∀ done e who more before rest, s.answers = before ++ .hangs :: rest → before.length = done.length →
        answersOk (done.map (·.2)) before = true →
        (s.initDone = false → initializeCalls s = done ++ (e, who) :: more →
          perform .callInitialize s = .fault (.hang (.hook who) (s.trace ++ done.map (·.1) ++ [e]))) ∧
        (s.initDone = true → shutdownCalls s = done ++ (e, who) :: more →
          perform .callShutdown s = .fault (.hang (.hook who) (s.trace ++ done.map (·.1) ++ [e])))))

/-- R41, R42, R94. A write by `processEvents`, in any tick that comes to it, or by the reset hook in Reset, that is neither
RaiseIRQ nor of `nextEvent` or `halted` is a fault: ILLEGAL_STATE for an illegal state code, FORBIDDEN_WRITE otherwise. -/
def Obligations.EventHookBadWriteFaults : Prop :=
  ∀ (s : State) (pre post : List BlockWrite) (w : BlockWrite) (rest : List CallAnswer),
    pre.all eventHookMay = true → w.field ≠ .nextEvent → w.field ≠ .halted → (∀ v, w ≠ .raiseIRQ v) →
    (∀ i, reachesEventHook i s = true → hookAnswers i s = .returns (pre ++ w :: post) :: rest →
      StopsAtBadWrite (exec i s) .processEvents w (s.trace ++ portCalls i s ++ [.processEvents])) ∧
    (s.shutDown = false → s.answers = .returns (pre ++ w :: post) :: rest →
      StopsAtBadWrite (perform .callReset s) .resetHook w (s.trace ++ [.resetHook]))

/-- R41, R42, R94. A write by `setInterruptsEnabled` at interrupt entry that is not a RaiseIRQ is a fault: ILLEGAL_STATE for an
illegal state code, FORBIDDEN_WRITE otherwise. -/
def Obligations.DisableHookBadWriteFaults : Prop :=
  ∀ (s : State) (pre post : List BlockWrite) (w : BlockWrite) (rest : List CallAnswer), s.running = true →
    s.block.irqPending = true → s.answers = .returns (pre ++ w :: post) :: rest →
    (∀ x ∈ pre, ∃ v, x = .raiseIRQ v) → (∀ v, w ≠ .raiseIRQ v) →
    StopsAtBadWrite (exec .fetch s) .setInterruptsEnabled w (s.trace ++ [.setIE false])

/-! ### One step -/

/-- R90, R112, R114, R96, R133 (the queue of calls is the model's: log 9; that a DECODE tick is also the tick of the row
`DISPATCH[op]` is its reading of the table: log 16). Where the host's next call is Tick, the step is the tick of the
instruction the state register's code stands for; where that is DECODE, it is also the tick of `DISPATCH[op]` for the byte
`op` in `bus`. All it does around that tick is to take the call from the host's queue, if it stood there. -/
def Obligations.StepRunsDecodedInstruction : Prop :=
  ∀ (s : State) (i : Instr),
    (decodeWord .state4 s.block.state.toNat = .ok i ∨
      s.block.state = 1 ∧ decodeWord .opByte8 s.block.bus.toNat = .ok i) →
    (s.hostCalls = [] → step s = exec i s) ∧
    (∀ rest, s.hostCalls = .tick :: rest → step s = exec i { s with hostCalls := rest })

/-- R190. Where the host's next call is an operation other than Tick, the step is that operation and nothing else; the call
after it then stands first. -/
def Obligations.StepPerformsHostOperation : Prop :=
  ∀ (s : State) (op : HostOp) (rest : List HostCall), s.hostCalls = .op op :: rest →
    step s = perform op { s with hostCalls := rest }

/-- A word placed where the next step reads it is run by that step, as the instruction the table's numbering gives it
(log 14, log 15). -/
def Obligations.PlacedWordRuns : Prop :=
  ∀ (s : State) (nbits w : Nat) (i : Instr), decodeTableWord nbits w = some i →
    step (s.withFetchWord nbits w) = exec i (s.withFetchWord nbits w)

/-! ### Encoding -/

/-- R91, R96. Decoding an instruction's byte gives the instruction back, for all of them, with every opcode; and a word that
decodes to an instruction in a format is that instruction's own word in its own format. -/
def Obligations.DecodeEncodeAgree : Prop :=
  (∀ (i : Instr) (rest : List Byte), decodeBytes i.format (encodeByte i :: rest) = .ok (i, rest)) ∧
  (∀ (f : Format) (w : Nat) (i : Instr), decodeWord f w = .ok i → i.format = f ∧ encode i = w)

/-- R91, R96. Words written out from the spec's tables decode to what they stand for. -/
def Obligations.SpelledWordsDecode : Prop :=
  decodeWord .state4 0b0000 = .ok .fetch ∧ decodeWord .state4 0b0010 = .ok .execute ∧
  decodeWord .state4 0b0101 = .ok .memoryStore ∧ decodeWord .state4 0b1001 = .ok .readPcStall ∧
  decodeWord .state4 0b1010 = .ok .stall ∧ decodeWord .opByte8 0x3E = .ok (.dispatch 0x3E) ∧
  decodeWord .state4 0b10000 = .error .widerThanStateRegister

/-! ### Registers -/

/-- R24. `F[3:0]` reads as zero at all times, and a write to `AF` or `F` stores zero there and the rest as written. -/
def Obligations.FlagsLowNibbleHardwired : Prop :=
  ∀ (b : Block), b.f &&& 0x0F = 0 ∧ b.af &&& 0x000F = 0 ∧
    (∀ v : Word, (applyWrite b (.af v)).af = v &&& 0xFFF0) ∧
    (∀ v : Byte, (applyWrite b (.regF v)).f = v &&& 0xF0 ∧ (applyWrite b (.regF v)).a = b.a)

/-- R22. A write to a byte half changes only those 8 bits of its pair, and a write to a pair changes both halves. -/
def Obligations.ByteHalfWrites : Prop :=
  ∀ (b : Block) (v : Byte),
    hiByte (applyWrite b (.regA v)).af = v ∧ loByte (applyWrite b (.regA v)).af = b.f ∧
    hiByte (applyWrite b (.regB v)).bc = v ∧ loByte (applyWrite b (.regB v)).bc = loByte b.bc ∧
    hiByte (applyWrite b (.regC v)).bc = hiByte b.bc ∧ loByte (applyWrite b (.regC v)).bc = v ∧
    hiByte (applyWrite b (.regD v)).de = v ∧ loByte (applyWrite b (.regD v)).de = loByte b.de ∧
    hiByte (applyWrite b (.regE v)).de = hiByte b.de ∧ loByte (applyWrite b (.regE v)).de = v ∧
    hiByte (applyWrite b (.regH v)).hl = v ∧ loByte (applyWrite b (.regH v)).hl = loByte b.hl ∧
    hiByte (applyWrite b (.regL v)).hl = hiByte b.hl ∧ loByte (applyWrite b (.regL v)).hl = v ∧
    ∀ w : Word, (applyWrite b (.bc w)).bc = w ∧ (applyWrite b (.de w)).de = w ∧ (applyWrite b (.hl w)).hl = w ∧
      hiByte (applyWrite b (.af w)).af = hiByte w ∧ w = (show Word from hiByte w ++ loByte w)

/-- R40, R22, R24, R10. What every write of a handler or hook does to the block: its field takes the value, every other field
keeps its own; and writes are made in order, a later one over an earlier one. The core's own fields are no one's to write:
`cycles`, the pending flag and the vector are admitted of no writer (R42). -/
def Obligations.BlockWritesAndFrames : Prop :=
  ∀ b : Block,
    (∀ v : Word,
      applyWrite b (.af v) = { b with a := v.extractLsb' 8 8, flags := v.extractLsb' 4 4 } ∧
      applyWrite b (.bc v) = { b with bc := v } ∧ applyWrite b (.de v) = { b with de := v } ∧
      applyWrite b (.hl v) = { b with hl := v } ∧ applyWrite b (.sp v) = { b with sp := v } ∧
      applyWrite b (.pc v) = { b with pc := v } ∧ applyWrite b (.index v) = { b with index := v }) ∧
    (∀ v : Byte,
      applyWrite b (.regA v) = { b with a := v } ∧
      applyWrite b (.regF v) = { b with flags := v.extractLsb' 4 4 } ∧
      applyWrite b (.regB v) = { b with bc := v ++ b.bc.extractLsb' 0 8 } ∧
      applyWrite b (.regC v) = { b with bc := b.bc.extractLsb' 8 8 ++ v } ∧
      applyWrite b (.regD v) = { b with de := v ++ b.de.extractLsb' 0 8 } ∧
      applyWrite b (.regE v) = { b with de := b.de.extractLsb' 8 8 ++ v } ∧
      applyWrite b (.regH v) = { b with hl := v ++ b.hl.extractLsb' 0 8 } ∧
      applyWrite b (.regL v) = { b with hl := b.hl.extractLsb' 8 8 ++ v } ∧
      applyWrite b (.bus v) = { b with bus := v } ∧
      applyWrite b (.raiseIRQ v) = { b with irqPending := true, irqVector := v }) ∧
    (∀ r, applyWrite b (.ir r) = { b with ir := r }) ∧ (∀ c, applyWrite b (.state c) = { b with state := c }) ∧
    (∀ n, applyWrite b (.nextEvent n) = { b with nextEvent := n }) ∧
    (∀ x, applyWrite b (.halted x) = { b with halted := x }) ∧
    (∀ who, (∀ n, admits who (.cycles n) = false) ∧ (∀ x, admits who (.irqPending x) = false) ∧
      ∀ v, admits who (.irqVector v) = false) ∧
    applyWrites [] b = b ∧
    ∀ (ws : List BlockWrite) (w : BlockWrite), applyWrites (ws ++ [w]) b = applyWrite (applyWrites ws b) w

/-! ### The interrupt latch and Reset -/

/-- R210. RaiseIRQ sets the pending flag and records the vector unconditionally, in every phase before Shutdown, and does
nothing else; called from a handler or any hook inside a step it is admitted and has the same effect. -/
def Obligations.RaiseIRQSetsLatch : Prop :=
  ∀ (s : State) (v : Byte),
    (s.shutDown = false →
      perform (.raiseIRQ v) s = .next { s with block := { s.block with irqPending := true, irqVector := v } }) ∧
    (∀ (who : Writer) (more : List BlockWrite), checkedWrites who (.raiseIRQ v :: more) s =
      checkedWrites who more { s with block := { s.block with irqPending := true, irqVector := v } })

/-- R211. No queue: of two RaiseIRQ calls before consumption the last one's vector stands, and the latch stays pending. -/
def Obligations.LastRaiseWins : Prop :=
  ∀ (s : State) (v w : Byte) (rest : List HostCall), s.shutDown = false →
    s.hostCalls = .op (.raiseIRQ v) :: .op (.raiseIRQ w) :: rest →
    andThen (step s) step =
      .next { s with block := { s.block with irqPending := true, irqVector := w }, hostCalls := rest }

/-- R252, R253, R254. Reset completes in every phase before Shutdown: the pairs, `sp`, `pc`, `IR`, `cycles`, `nextEvent`,
`state` and `halted` are cleared; `bus`, `index` and the latch keep their values; then the reset hook runs, and what it
writes stands, in its order: `nextEvent`, `halted`, a RaiseIRQ. -/
def Obligations.ResetClearsTheBlock : Prop :=
  ∀ s : State, s.shutDown = false → answersOk [.resetHook] s.answers = true →
    ∃ t, perform .callReset s = .next t ∧
      AfterEvent true
        { a := 0, flags := 0, bc := 0, de := 0, hl := 0, sp := 0, pc := 0, bus := s.block.bus, index := s.block.index,
          ir := none, cycles := 0, nextEvent := 0, state := 0, halted := false, irqPending := s.block.irqPending,
          irqVector := s.block.irqVector }
        t.block ∧
      (∀ rest, s.answers = .returns [] :: rest →
        t.block =
          { a := 0, flags := 0, bc := 0, de := 0, hl := 0, sp := 0, pc := 0, bus := s.block.bus,
            index := s.block.index, ir := none, cycles := 0, nextEvent := 0, state := 0, halted := false,
            irqPending := s.block.irqPending, irqVector := s.block.irqVector }) ∧
      (∀ ws rest, s.answers = .returns ws :: rest → t.answers = rest ∧
        t.block = applyWrites ws
          { a := 0, flags := 0, bc := 0, de := 0, hl := 0, sp := 0, pc := 0, bus := s.block.bus,
            index := s.block.index, ir := none, cycles := 0, nextEvent := 0, state := 0, halted := false,
            irqPending := s.block.irqPending, irqVector := s.block.irqVector }) ∧
      (∀ n rest, s.answers = .returns [.nextEvent n] :: rest → t.block.nextEvent = n) ∧
      (∀ x rest, s.answers = .returns [.halted x] :: rest → t.block.halted = x) ∧
      (∀ v rest, s.answers = .returns [.raiseIRQ v] :: rest → t.block.irqPending = true ∧ t.block.irqVector = v) ∧
      t.trace = s.trace ++ [.resetHook] ∧ SameMemory s t ∧ SameSession { s with resetDone := true } t

/-- R255. Reset of an initialised machine with no interrupt pending, by a hook that writes nothing, then one Tick: `cycles` is
1, the state is DECODE, one load was issued at address 0, and `processEvents` was called. -/
def Obligations.ResetThenTick : Prop :=
  ∀ (s : State) (rest : List CallAnswer) (more : List HostCall), s.initDone = true → s.shutDown = false → s.block.irqPending = false →
    s.hostCalls = .op .callReset :: more → (more = [] ∨ more.head? = some .tick) →
    s.answers = .returns [] :: rest → answersOk [.processEvents] rest = true →
    loadOk s 0 = true →
    ∃ t, andThen (step s) step = .next t ∧ t.block.cycles = 1 ∧ t.block.state = 1 ∧ t.block.pc = 0 ∧
      t.trace = s.trace ++ [.resetHook, .load 0, .processEvents]

/-- R253. An interrupt pending before Reset is still pending after it, and the first FETCH after it loads from the vector, not
from address 0. -/
def Obligations.PendingSurvivesReset : Prop :=
  ∀ (s t u : State) (rest : List CallAnswer), s.block.irqPending = true → s.answers = .returns [] :: rest →
    perform .callReset s = .next t → nextCall t = .tick → step t = .next u →
    t.block.irqPending = true ∧ t.block.irqVector = s.block.irqVector ∧ u.block.pc = zext16 s.block.irqVector ∧
    ∃ after, u.trace = s.trace ++ [.resetHook, .setIE false, .load (zext16 s.block.irqVector)] ++ after

/-! ### The control surface -/

/-- R188, R187. AttachComponents, Initialize, Shutdown, HotplugAttach and HotplugDetach write no field of the block of their
own: only the latch may change, by a RaiseIRQ of the hooks they call. They change no memory. -/
def Obligations.LifecycleTouchesNoRegister : Prop :=
  ∀ (s t : State) (op : HostOp),
    ((∃ m slots, op = .attachComponents m slots) ∨ op = .callInitialize ∨ op = .callShutdown ∨
      (∃ i, op = .hotplugAttach i) ∨ (∃ i, op = .hotplugDetach i)) →
    perform op s = .next t → LatchOnly s.block t.block ∧ SameMemory s t

/-- R182. Initialize completes once, before Shutdown: the master's `init` hook, then those of the populated slots in slot
order, each one that is present exactly once; then `initDone` is set. The RaiseIRQ calls the hooks make are made, in order. -/
def Obligations.InitializeRunsHooksInOrder : Prop :=
  ∀ s : State, s.initDone = false → s.shutDown = false →
    answersOk ((initializeCalls s).map (·.2)) s.answers = true →
    ∃ t, perform .callInitialize s = .next t ∧ t.trace = s.trace ++ (initializeCalls s).map (·.1) ∧
      LatchOnly s.block t.block ∧
      (∀ as rest, s.answers = as ++ rest → as.length = (initializeCalls s).length →
        t.block = applyWrites (as.flatMap CallAnswer.writes) s.block ∧ t.answers = rest) ∧
      SameMemory s t ∧ SameSession { s with initDone := true } t

/-- R183. Shutdown completes once, after Initialize: the master's `deinit` hook first, then those of the populated slots in
slot order; then `shutDown` is set. The RaiseIRQ calls the hooks make are made, in order. -/
def Obligations.ShutdownRunsHooksInOrder : Prop :=
  ∀ s : State, s.initDone = true → s.shutDown = false →
    answersOk ((shutdownCalls s).map (·.2)) s.answers = true →
    ∃ t, perform .callShutdown s = .next t ∧ t.trace = s.trace ++ (shutdownCalls s).map (·.1) ∧
      LatchOnly s.block t.block ∧
      (∀ as rest, s.answers = as ++ rest → as.length = (shutdownCalls s).length →
        t.block = applyWrites (as.flatMap CallAnswer.writes) s.block ∧ t.answers = rest) ∧
      SameMemory s t ∧ SameSession { s with shutDown := true } t

/-- R184, R185. HotplugAttach and HotplugDetach of a populated slot run that slot's hook, if it is present, and no other; the
RaiseIRQ calls it makes are made. -/
def Obligations.HotplugRunsOneSlot : Prop :=
  ∀ (s : State) (i : Nat) (c : Component), s.shutDown = false → s.slots[i]? = some (some c) →
    (c.hasInit = true → answersOk [.componentInit c] s.answers = true →
      ∃ t, perform (.hotplugAttach i) s = .next t ∧ t.trace = s.trace ++ [.initSlot i] ∧
        LatchOnly s.block t.block ∧
        (∀ ws rest, s.answers = .returns ws :: rest → t.block = applyWrites ws s.block ∧ t.answers = rest) ∧
        SameMemory s t ∧ SameSession s t) ∧
    (c.hasDeinit = true → answersOk [.componentDeinit c] s.answers = true →
      ∃ t, perform (.hotplugDetach i) s = .next t ∧ t.trace = s.trace ++ [.deinitSlot i] ∧
        LatchOnly s.block t.block ∧
        (∀ ws rest, s.answers = .returns ws :: rest → t.block = applyWrites ws s.block ∧ t.answers = rest) ∧
        SameMemory s t ∧ SameSession s t) ∧
    (c.hasInit = false → perform (.hotplugAttach i) s = .next s) ∧
    (c.hasDeinit = false → perform (.hotplugDetach i) s = .next s)

/-- R187, R42, R94. A write by a component's `init` or `deinit` hook that is not a RaiseIRQ is a fault, ILLEGAL_STATE for an
illegal state code and FORBIDDEN_WRITE otherwise: in HotplugAttach and HotplugDetach, and in Initialize and Shutdown at
whichever of their hooks, the master's among them, makes it after those before it were answered. -/
def Obligations.ComponentHookBadWriteFaults : Prop :=
  ∀ (s : State) (pre post : List BlockWrite) (w : BlockWrite) (rest : List CallAnswer),
    s.shutDown = false → (∀ x ∈ pre, ∃ v, x = .raiseIRQ v) → (∀ v, w ≠ .raiseIRQ v) →
    (∀ i c, s.slots[i]? = some (some c) → s.answers = .returns (pre ++ w :: post) :: rest →
      (c.hasInit = true →
        StopsAtBadWrite (perform (.hotplugAttach i) s) (.componentInit c) w (s.trace ++ [.initSlot i])) ∧
      (c.hasDeinit = true →
        StopsAtBadWrite (perform (.hotplugDetach i) s) (.componentDeinit c) w (s.trace ++ [.deinitSlot i]))) ∧
    (∀ done e who more before, s.answers = before ++ .returns (pre ++ w :: post) :: rest →
      before.length = done.length → answersOk (done.map (·.2)) before = true →
      (s.initDone = false → initializeCalls s = done ++ (e, who) :: more →
        StopsAtBadWrite (perform .callInitialize s) who w (s.trace ++ done.map (·.1) ++ [e])) ∧
      (s.initDone = true → shutdownCalls s = done ++ (e, who) :: more →
        StopsAtBadWrite (perform .callShutdown s) who w (s.trace ++ done.map (·.1) ++ [e])))

/-- R186 (before Shutdown: after it every operation is refused, R189). A slot index at or beyond the slot count, and an empty
slot, are a no-op. -/
def Obligations.HotplugOutOfRangeNoOp : Prop :=
  ∀ (s : State) (i : Nat), s.shutDown = false → (s.slots.length ≤ i ∨ s.slots[i]? = some none) →
    perform (.hotplugAttach i) s = .next s ∧ perform (.hotplugDetach i) s = .next s

/-- R181, R180 (the refusal where no master is given is read from R190: log 18). AttachComponents binds the master and replaces
the slot list wholesale, and does nothing else, before Shutdown; with no master it is refused as CONFIG_MASTER, number 18. -/
def Obligations.AttachReplacesComponents : Prop :=
  ∀ (s : State) (slots : List (Option Component)), s.shutDown = false →
    (∀ m : Component, perform (.attachComponents (some m) slots) s = .next { s with master := m, slots := slots }) ∧
    perform (.attachComponents none slots) s = .refused .configMaster ∧ Refusal.configMaster.code = some 18

/-- R189. After Shutdown every step is refused, host operation or tick. -/
def Obligations.AfterShutdownRefused : Prop :=
  ∀ s : State, s.shutDown = true → step s = .refused .lifecycle

/-- R182, R183, R201. Initialize twice or after Shutdown, and Shutdown before Initialize or twice, are refused. -/
def Obligations.LifecycleOrderEnforced : Prop :=
  ∀ s : State, (s.initDone = true ∨ s.shutDown = true → perform .callInitialize s = .refused .lifecycle) ∧
    (s.initDone = false ∨ s.shutDown = true → perform .callShutdown s = .refused .lifecycle)

/-- R191, R97, R180. A configuration with an unpopulated dispatcher entry, with a Memory Port or Interrupt Port operation
missing, or without a master, is refused (which refusal a configuration with several of these gets is the model's choice: log 20). -/
def Obligations.BadConfigurationRefused : Prop :=
  ∀ c : RawConfig,
    ((none ∈ c.table ∨ c.table.length ≠ 256) → State.create c = .refused .configTable) ∧
    (none ∉ c.table → c.table.length = 256 →
      ((c.load && c.store && c.irqReset && c.setInterruptsEnabled && c.processEvents) = false →
        State.create c = .refused .configHook) ∧
      ((c.load && c.store && c.irqReset && c.setInterruptsEnabled && c.processEvents) = true → c.master = none →
        State.create c = .refused .configMaster))

/-- R250, R97. A good configuration is created with every field of the block zero, `IR` null, the lifecycle not begun, the
table as given, and the invariant. -/
def Obligations.CreationState : Prop :=
  ∀ (c : RawConfig) (m : Component) (hs : List HandlerRef), c.table = hs.map some → hs.length = 256 →
    (c.load && c.store && c.irqReset && c.setInterruptsEnabled && c.processEvents) = true → c.master = some m →
    ∃ t, State.create c = .next t ∧
      t.block =
        { a := 0, flags := 0, bc := 0, de := 0, hl := 0, sp := 0, pc := 0, bus := 0, index := 0, ir := none,
          cycles := 0, nextEvent := 0, state := 0, halted := false, irqPending := false, irqVector := 0 } ∧
      t.initDone = false ∧ t.resetDone = false ∧ t.shutDown = false ∧ t.dispatch.toList = hs ∧ t.master = m ∧
      t.slots = c.slots ∧ t.Inv
end

