-- ==== Sys2Proof/Laws/Memory.lean ====
section
/-! SUPPORT. The laws of the RAM contents: read after write, and the canonical form. -/

namespace Sys2Proof.Machine

/-- Below every listed address, nothing is listed. -/
theorem Memory.read_below {low : Nat} {m : List Host.Cell} (h : Memory.wfFrom low m = true) {addr : Nat}
    (hlt : addr < low) : Memory.read m addr = Memory.unlisted := by
  induction m generalizing low with
  | nil => rfl
  | cons c rest ih =>
    obtain ⟨k, v⟩ := c
    simp only [Memory.wfFrom, Bool.and_eq_true, decide_eq_true_eq] at h
    simp only [Memory.read]
    rw [if_neg (by omega), ih h.2 (by omega)]

/-- A list in canonical form from a bound is so from any lower bound. -/
theorem Memory.wfFrom_mono {low low' : Nat} (hle : low' ≤ low) {m : List Host.Cell} (h : Memory.wfFrom low m = true) :
    Memory.wfFrom low' m = true := by
  cases m with
  | nil => rfl
  | cons c rest =>
    obtain ⟨k, v⟩ := c
    simp only [Memory.wfFrom, Bool.and_eq_true, decide_eq_true_eq] at h ⊢
    exact ⟨⟨⟨by omega, h.1.1.2⟩, h.1.2⟩, h.2⟩

/-- A cell put in front keeps the canonical form. -/
theorem Memory.cell_append_wfFrom {low addr : Nat} {m : List Host.Cell} (v : Byte) (hlow : low ≤ addr)
    (hmax : addr < 65536) (h : Memory.wfFrom (addr + 1) m = true) : Memory.wfFrom low (Memory.cell addr v ++ m) = true := by
  unfold Memory.cell
  split
  · exact Memory.wfFrom_mono (by omega) h
  · simp_all [Memory.wfFrom]

/-- A write keeps the canonical form from a bound. -/
theorem Memory.write_wfFrom {low addr : Nat} {m : List Host.Cell} (v : Byte) (hlow : low ≤ addr) (hmax : addr < 65536)
    (h : Memory.wfFrom low m = true) : Memory.wfFrom low (Memory.write m addr v) = true := by
  induction m generalizing low with
  | nil => simpa [Memory.write] using Memory.cell_append_wfFrom (m := []) v hlow hmax rfl
  | cons c rest ih =>
    obtain ⟨k, u⟩ := c
    have h' := h
    simp only [Memory.wfFrom, Bool.and_eq_true, decide_eq_true_eq] at h
    simp only [Memory.write]
    split
    · refine Memory.cell_append_wfFrom v hlow hmax ?_
      simp only [Memory.wfFrom, Bool.and_eq_true, decide_eq_true_eq]
      exact ⟨⟨⟨by omega, h.1.1.2⟩, h.1.2⟩, h.2⟩
    · split
      · next hk => subst hk; exact Memory.cell_append_wfFrom v hlow hmax h.2
      · simp only [Memory.wfFrom, Bool.and_eq_true, decide_eq_true_eq]
        exact ⟨h.1, ih (by omega) h.2⟩

/-- A write keeps the canonical form. -/
theorem Memory.write_wf {m : List Host.Cell} (addr : Word) (v : Byte) (h : Memory.wf m = true) :
    Memory.wf (Memory.write m addr.toNat v) = true :=
  Memory.write_wfFrom v (Nat.zero_le _) addr.isLt h

/-- An initial image is in canonical form. -/
theorem Memory.image_wf (cells : List (Word × Byte)) : Memory.wf (Memory.image cells) = true := by
  have key : ∀ (cs : List (Word × Byte)) (m : List Host.Cell), Memory.wf m = true →
      Memory.wf (cs.foldl (fun m c => Memory.write m c.1.toNat c.2) m) = true := by
    intro cs
    induction cs with
    | nil => exact fun _ h => h
    | cons c rest ih => exact fun m h => ih _ (Memory.write_wf c.1 c.2 h)
  exact key cells [] rfl

/-- What a single cell reads as. -/
theorem Memory.read_cell_append (addr : Nat) (v : Byte) (m : List Host.Cell) (a : Nat)
    (hm : a = addr → Memory.read m a = Memory.unlisted) :
    Memory.read (Memory.cell addr v ++ m) a = if a = addr then v else Memory.read m a := by
  unfold Memory.cell
  split
  · next hv =>
    split
    · next ha => rw [List.nil_append, hm ha, hv]
    · rfl
  · simp only [List.cons_append, List.nil_append, Memory.read, eq_comm]

/-- Reading after a write from a bound: the byte written at its address, what was there before elsewhere. -/
theorem Memory.read_write_from {low addr : Nat} {m : List Host.Cell} (v : Byte) (h : Memory.wfFrom low m = true) (a : Nat) :
    Memory.read (Memory.write m addr v) a = if a = addr then v else Memory.read m a := by
  induction m generalizing low with
  | nil => simpa [Memory.write] using Memory.read_cell_append addr v [] a (fun _ => rfl)
  | cons c rest ih =>
    obtain ⟨k, u⟩ := c
    have h' := h
    simp only [Memory.wfFrom, Bool.and_eq_true, decide_eq_true_eq] at h
    simp only [Memory.write]
    split
    · next hlt =>
      refine Memory.read_cell_append addr v _ a fun ha => ?_
      have : Memory.wfFrom k ((k, u) :: rest) = true := by
        simp only [Memory.wfFrom, Bool.and_eq_true, decide_eq_true_eq]
        exact ⟨⟨⟨le_refl _, h.1.1.2⟩, h.1.2⟩, h.2⟩
      exact Memory.read_below this (by omega)
    · split
      · next hk =>
        subst hk
        rw [Memory.read_cell_append addr v rest a fun ha => Memory.read_below h.2 (by omega)]
        simp only [Memory.read]
        split
        · rfl
        · rw [if_neg (by omega)]
      · next hge hne =>
        simp only [Memory.read]
        split
        · next hka => rw [if_neg (by omega)]
        · exact ih h.2

/-- Reading after a write (R74): the byte written at its address, what was there before elsewhere. -/
theorem Memory.read_write {m : List Host.Cell} (h : Memory.wf m = true) (addr : Nat) (v : Byte) (a : Nat) :
    Memory.read (Memory.write m addr v) a = if a = addr then v else Memory.read m a :=
  Memory.read_write_from v h a

end Sys2Proof.Machine
end

