-- ==== Sys2Proof/Laws/State.lean ====
section
/-! SUPPORT. The small lemmas of the state's updates: one per field and update, true by rfl. -/

namespace Sys2Proof.Machine

variable (s : State) (f : Block → Block) (e : Event) (code : StateCode) (b : Block) (v : Byte)

@[simp] theorem onBlock_block : (s.onBlock f).block = f s.block := rfl
@[simp] theorem onBlock_initDone : (s.onBlock f).initDone = s.initDone := rfl
@[simp] theorem onBlock_resetDone : (s.onBlock f).resetDone = s.resetDone := rfl
@[simp] theorem onBlock_shutDown : (s.onBlock f).shutDown = s.shutDown := rfl
@[simp] theorem onBlock_dispatch : (s.onBlock f).dispatch = s.dispatch := rfl
@[simp] theorem onBlock_master : (s.onBlock f).master = s.master := rfl
@[simp] theorem onBlock_slots : (s.onBlock f).slots = s.slots := rfl
@[simp] theorem onBlock_mem : (s.onBlock f).mem = s.mem := rfl
@[simp] theorem onBlock_ram : (s.onBlock f).ram = s.ram := rfl
@[simp] theorem onBlock_trace : (s.onBlock f).trace = s.trace := rfl
@[simp] theorem onBlock_hostCalls : (s.onBlock f).hostCalls = s.hostCalls := rfl
@[simp] theorem onBlock_answers : (s.onBlock f).answers = s.answers := rfl
@[simp] theorem onBlock_loads : (s.onBlock f).loads = s.loads := rfl
@[simp] theorem onBlock_stores : (s.onBlock f).stores = s.stores := rfl
@[simp] theorem onBlock_draws : (s.onBlock f).draws = s.draws := rfl

@[simp] theorem record_block : (s.record e).block = s.block := rfl
@[simp] theorem record_initDone : (s.record e).initDone = s.initDone := rfl
@[simp] theorem record_resetDone : (s.record e).resetDone = s.resetDone := rfl
@[simp] theorem record_shutDown : (s.record e).shutDown = s.shutDown := rfl
@[simp] theorem record_dispatch : (s.record e).dispatch = s.dispatch := rfl
@[simp] theorem record_master : (s.record e).master = s.master := rfl
@[simp] theorem record_slots : (s.record e).slots = s.slots := rfl
@[simp] theorem record_mem : (s.record e).mem = s.mem := rfl
@[simp] theorem record_ram : (s.record e).ram = s.ram := rfl
@[simp] theorem record_trace : (s.record e).trace = s.trace ++ [e] := rfl
@[simp] theorem record_hostCalls : (s.record e).hostCalls = s.hostCalls := rfl
@[simp] theorem record_answers : (s.record e).answers = s.answers := rfl
@[simp] theorem record_loads : (s.record e).loads = s.loads := rfl
@[simp] theorem record_stores : (s.record e).stores = s.stores := rfl
@[simp] theorem record_draws : (s.record e).draws = s.draws := rfl

/-- Two changes of the block in a row. -/
@[simp] theorem onBlock_onBlock (g : Block → Block) : (s.onBlock f).onBlock g = s.onBlock fun b => g (f b) := rfl

@[simp] theorem beginTick_a : (beginTick code b).a = b.a := rfl
@[simp] theorem beginTick_flags : (beginTick code b).flags = b.flags := rfl
@[simp] theorem beginTick_bc : (beginTick code b).bc = b.bc := rfl
@[simp] theorem beginTick_de : (beginTick code b).de = b.de := rfl
@[simp] theorem beginTick_hl : (beginTick code b).hl = b.hl := rfl
@[simp] theorem beginTick_sp : (beginTick code b).sp = b.sp := rfl
@[simp] theorem beginTick_pc : (beginTick code b).pc = b.pc := rfl
@[simp] theorem beginTick_bus : (beginTick code b).bus = b.bus := rfl
@[simp] theorem beginTick_index : (beginTick code b).index = b.index := rfl
@[simp] theorem beginTick_ir : (beginTick code b).ir = b.ir := rfl
@[simp] theorem beginTick_cycles : (beginTick code b).cycles = b.cycles + 1 := rfl
@[simp] theorem beginTick_nextEvent : (beginTick code b).nextEvent = b.nextEvent := rfl
@[simp] theorem beginTick_state : (beginTick code b).state = autoAdvance code := rfl
@[simp] theorem beginTick_halted : (beginTick code b).halted = b.halted := rfl
@[simp] theorem beginTick_irqPending : (beginTick code b).irqPending = b.irqPending := rfl
@[simp] theorem beginTick_irqVector : (beginTick code b).irqVector = b.irqVector := rfl

@[simp] theorem raiseIRQ_irqPending : (raiseIRQ v b).irqPending = true := rfl
@[simp] theorem raiseIRQ_irqVector : (raiseIRQ v b).irqVector = v := rfl

/-- The auto-advance always gives a ring code (R92). -/
theorem autoAdvance_ring (code : StateCode) : (autoAdvance code).toNat ≤ 3 := by
  revert code; decide

/-- The auto-advance is a legal write of the state register (R172). -/
@[simp] theorem legalCode_autoAdvance (code : StateCode) : legalCode (autoAdvance code) = true := by
  revert code; decide

end Sys2Proof.Machine
end

