-- ==== Sys2Proof/Laws/Ops.lean ====
section
/-! SUPPORT. One lemma for each shared operation that says everything it can do: a write to the block, a list of checked
writes, a call of a handler or hook, a load, a store, the event check, the tick frame. -/

namespace Sys2Proof.Machine

/-! ### Going on from a result -/

@[simp] theorem andThen_next (s : State) (f : State → Result) : andThen (.next s) f = f s := rfl
@[simp] theorem andThen_fault (x : Fault) (f : State → Result) : andThen (.fault x) f = .fault x := rfl
@[simp] theorem andThen_refused (x : Refusal) (f : State → Result) : andThen (.refused x) f = .refused x := rfl

/-- A chain answers a next state only through a next state of its first part. -/
theorem andThen_eq_next {r : Result} {f : State → Result} {t : State} (h : andThen r f = .next t) :
    ∃ m, r = .next m ∧ f m = .next t := by
  cases r with
  | next m => exact ⟨m, rfl, h⟩
  | fault x => cases h
  | refused x => cases h

/-- Chains associate. -/
theorem andThen_assoc (r : Result) (f g : State → Result) :
    andThen (andThen r f) g = andThen r fun s => andThen (f s) g := by
  cases r <;> rfl

/-! ### Writes to the block -/

/-- What a call of RaiseIRQ, `nextEvent` and `halted` can change: the fields R41 names, the latch only being set. -/
def HookLeaves (b c : Block) : Prop :=
  c = { b with nextEvent := c.nextEvent, halted := c.halted, irqPending := c.irqPending, irqVector := c.irqVector } ∧
  (c.irqPending = true ∨ c.irqPending = b.irqPending ∧ c.irqVector = b.irqVector)

theorem HookLeaves.refl (b : Block) : HookLeaves b b := ⟨rfl, .inr ⟨rfl, rfl⟩⟩

theorem HookLeaves.trans {b c d : Block} (h : HookLeaves b c) (h' : HookLeaves c d) : HookLeaves b d := by
  obtain ⟨h1, h2⟩ := h
  obtain ⟨h3, h4⟩ := h'
  refine ⟨by rw [h3, h1], ?_⟩
  rcases h4 with h4 | ⟨h4, h5⟩
  · exact .inl h4
  · rcases h2 with h2 | ⟨h2, h6⟩
    · exact .inl (h4.trans h2)
    · exact .inr ⟨h4.trans h2, h5.trans h6⟩

/-- The writes of `processEvents` and `reset` (R41). -/
theorem applyWrite_eventHook {w : BlockWrite} (h : eventHookMay w = true) (b : Block) : HookLeaves b (applyWrite b w) := by
  cases w <;> first
    | exact ⟨rfl, .inr ⟨rfl, rfl⟩⟩
    | exact ⟨rfl, .inl rfl⟩
    | (simp [eventHookMay, BlockWrite.isRaise] at h)

/-- The only write of `setInterruptsEnabled` and of component hooks (R41, R187). -/
theorem applyWrite_raise {w : BlockWrite} (h : w.isRaise = true) (b : Block) :
    ∃ v, applyWrite b w = raiseIRQ v b := by
  cases w <;> first
    | exact ⟨_, rfl⟩
    | (simp [BlockWrite.isRaise] at h)

/-- What a handler's writes never do (R40, R42, R94): change `cycles`, leave an illegal state code, clear the latch. -/
theorem applyWrite_handler {w : BlockWrite} (h : handlerMay w = true) (b : Block) :
    (applyWrite b w).cycles = b.cycles ∧
    (legalCode b.state = true → legalCode (applyWrite b w).state = true) ∧
    ((applyWrite b w).irqPending = true ∨
      (applyWrite b w).irqPending = b.irqPending ∧ (applyWrite b w).irqVector = b.irqVector) := by
  cases w <;> first
    | exact ⟨rfl, id, .inr ⟨rfl, rfl⟩⟩
    | exact ⟨rfl, id, .inl rfl⟩
    | exact ⟨rfl, fun _ => h, .inr ⟨rfl, rfl⟩⟩
    | (simp [handlerMay] at h)

@[simp] theorem applyWrites_nil (b : Block) : applyWrites [] b = b := rfl
@[simp] theorem applyWrites_cons (w : BlockWrite) (ws : List BlockWrite) (b : Block) :
    applyWrites (w :: ws) b = applyWrites ws (applyWrite b w) := rfl

/-- A relation of blocks that every admitted write keeps is kept by a list of them. -/
theorem applyWrites_ind {P : Block → Block → Prop} (refl : ∀ b, P b b) (trans : ∀ {b c d}, P b c → P c d → P b d)
    {ok : BlockWrite → Bool} (one : ∀ {w}, ok w = true → ∀ b, P b (applyWrite b w)) {ws : List BlockWrite}
    (h : ws.all ok = true) (b : Block) : P b (applyWrites ws b) := by
  induction ws generalizing b with
  | nil => exact refl b
  | cons w ws ih =>
    rw [List.all_cons, Bool.and_eq_true] at h
    exact trans (one h.1 b) (ih h.2 _)

/-- The writes of `processEvents` and `reset` (R41). -/
theorem applyWrites_eventHook {ws : List BlockWrite} (h : ws.all eventHookMay = true) (b : Block) :
    HookLeaves b (applyWrites ws b) :=
  applyWrites_ind HookLeaves.refl HookLeaves.trans applyWrite_eventHook h b

theorem LatchOnly.refl (b : Block) : LatchOnly b b := ⟨rfl, .inr ⟨rfl, rfl⟩⟩

theorem LatchOnly.trans {b c d : Block} (h : LatchOnly b c) (h' : LatchOnly c d) : LatchOnly b d := by
  obtain ⟨h1, h2⟩ := h
  obtain ⟨h3, h4⟩ := h'
  refine ⟨by rw [h3, h1], ?_⟩
  rcases h4 with h4 | ⟨h4, h5⟩
  · exact .inl h4
  · rcases h2 with h2 | ⟨h2, h6⟩
    · exact .inl (h4.trans h2)
    · exact .inr ⟨h4.trans h2, h5.trans h6⟩

/-- The writes of `setInterruptsEnabled` and component hooks (R41, R187). -/
theorem applyWrites_raise {ws : List BlockWrite} (h : ws.all BlockWrite.isRaise = true) (b : Block) :
    LatchOnly b (applyWrites ws b) :=
  applyWrites_ind LatchOnly.refl LatchOnly.trans
    (fun hw b => by obtain ⟨v, hv⟩ := applyWrite_raise hw b; rw [hv]; exact ⟨rfl, .inl rfl⟩) h b

/-- What a handler's writes keep (R40, R42). -/
def HandlerLeaves (b c : Block) : Prop :=
  c.cycles = b.cycles ∧ (legalCode b.state = true → legalCode c.state = true) ∧
  (c.irqPending = true ∨ c.irqPending = b.irqPending ∧ c.irqVector = b.irqVector)

theorem HandlerLeaves.trans {b c d : Block} (h : HandlerLeaves b c) (h' : HandlerLeaves c d) : HandlerLeaves b d := by
  obtain ⟨h1, h2, h3⟩ := h
  obtain ⟨h4, h5, h6⟩ := h'
  refine ⟨h4.trans h1, fun x => h5 (h2 x), ?_⟩
  rcases h6 with h6 | ⟨h6, h7⟩
  · exact .inl h6
  · rcases h3 with h3 | ⟨h3, h8⟩
    · exact .inl (h6.trans h3)
    · exact .inr ⟨h6.trans h3, h7.trans h8⟩

/-- The writes of a handler (R40). -/
theorem applyWrites_handler {ws : List BlockWrite} (h : ws.all handlerMay = true) (b : Block) :
    HandlerLeaves b (applyWrites ws b) :=
  applyWrites_ind (P := HandlerLeaves) (fun _ => ⟨rfl, id, .inr ⟨rfl, rfl⟩⟩) HandlerLeaves.trans applyWrite_handler h b

/-- Whatever a writer's admitted writes are, they keep what a handler's do (R40, R41). -/
theorem applyWrites_keeps {who : Writer} {ws : List BlockWrite} (h : ws.all (admits who) = true) (b : Block) :
    HandlerLeaves b (applyWrites ws b) := by
  have hook : ∀ {c}, HookLeaves b c → HandlerLeaves b c := fun {c} hc => by
    obtain ⟨h1, h2⟩ := hc
    exact ⟨by rw [h1], fun x => by rw [h1]; exact x, h2⟩
  have latch : ∀ {c}, LatchOnly b c → HandlerLeaves b c := fun {c} hc => by
    obtain ⟨h1, h2⟩ := hc
    exact ⟨by rw [h1], fun x => by rw [h1]; exact x, h2⟩
  cases who with
  | handler _ => exact applyWrites_handler h b
  | processEvents => exact hook (applyWrites_eventHook h b)
  | resetHook => exact hook (applyWrites_eventHook h b)
  | setInterruptsEnabled => exact latch (applyWrites_raise h b)
  | componentInit _ => exact latch (applyWrites_raise h b)
  | componentDeinit _ => exact latch (applyWrites_raise h b)

/-- Admitted writes are all made. -/
theorem checkedWrites_ok {who : Writer} {ws : List BlockWrite} (h : ws.all (admits who) = true) (s : State) :
    checkedWrites who ws s = .next (s.onBlock (applyWrites ws)) := by
  induction ws generalizing s with
  | nil => rfl
  | cons w ws ih =>
    rw [List.all_cons, Bool.and_eq_true] at h
    simp only [checkedWrites, h.1, if_true, ih h.2]
    rfl

/-- Checked writes that go on were all admitted. -/
theorem checkedWrites_eq_next {who : Writer} {ws : List BlockWrite} {s t : State}
    (h : checkedWrites who ws s = .next t) : ws.all (admits who) = true ∧ t = s.onBlock (applyWrites ws) := by
  induction ws generalizing s with
  | nil => cases h; exact ⟨rfl, rfl⟩
  | cons w ws ih =>
    simp only [checkedWrites] at h
    split at h
    · next hw =>
      obtain ⟨h1, h2⟩ := ih h
      exact ⟨by simp [hw, h1], h2⟩
    · cases h

/-- The first write that is not admitted is the fault (R42, R218). -/
theorem checkedWrites_fault {who : Writer} {pre : List BlockWrite} {w : BlockWrite} (post : List BlockWrite)
    (hpre : pre.all (admits who) = true) (hw : admits who w = false) (s : State) :
    checkedWrites who (pre ++ w :: post) s = .fault (writeFault who w s.trace) := by
  induction pre generalizing s with
  | nil => simp [checkedWrites, hw]
  | cons p pre ih =>
    rw [List.all_cons, Bool.and_eq_true] at hpre
    simp only [List.cons_append, checkedWrites, hpre.1, if_true, ih hpre.2, onBlock_trace]

/-! ### Calls -/

/-- The free answer keeps the contract (log 3). -/
theorem freeAnswer_admitted (who : Writer) (s : State) : (freeAnswer who s).all (admits who) = true := by
  simp [freeAnswer, List.all_filter]

/-- The writes the next call of this writer makes, if it keeps its contract. -/
def nextWrites (who : Writer) (s : State) : List BlockWrite :=
  match s.answers with
  | [] => freeAnswer who s
  | .hangs :: _ => []
  | .returns ws :: _ => ws

/-- The state a call leaves that makes its `nextWrites`. -/
def afterCall (who : Writer) (e : Event) (s : State) : State :=
  { (s.record e).onBlock (applyWrites (nextWrites who s)) with
    answers := s.answers.tail, draws := s.draws + (if s.answers.isEmpty then 1 else 0) }

/-- A call that is answered within the contract (R40, R41). -/
theorem callOut_ok {who : Writer} (e : Event) {s : State} (h : answersOk [who] s.answers = true) :
    (nextWrites who s).all (admits who) = true ∧ callOut who e s = .next (afterCall who e s) := by
  rcases ha : s.answers with _ | ⟨_ | ws, rest⟩
  · exact ⟨by simpa [nextWrites, ha] using freeAnswer_admitted who s,
      by simp [callOut, afterCall, nextWrites, ha, State.onBlock, State.record]⟩
  · simp [ha, answersOk, CallAnswer.okFor] at h
  · simp only [ha, answersOk, CallAnswer.okFor, Bool.and_true] at h
    exact ⟨by simpa [nextWrites, ha] using h,
      by simp [callOut, afterCall, nextWrites, ha, checkedWrites_ok h, State.onBlock, State.record]⟩

/-- A call that goes on was answered within the contract. -/
theorem callOut_eq_next {who : Writer} {e : Event} {s t : State} (h : callOut who e s = .next t) :
    answersOk [who] s.answers = true := by
  unfold callOut at h
  split at h
  · next ha => simp [ha, answersOk]
  · cases h
  · next ws rest ha => simp [ha, answersOk, CallAnswer.okFor, (checkedWrites_eq_next h).1]

/-- Everything a call that goes on can have done. -/
theorem callOut_cases {who : Writer} {e : Event} {s t : State} (h : callOut who e s = .next t) :
    t = afterCall who e s ∧ (nextWrites who s).all (admits who) = true := by
  obtain ⟨h1, h2⟩ := callOut_ok e (callOut_eq_next h)
  rw [h2] at h
  cases h
  exact ⟨rfl, h1⟩

@[simp] theorem afterCall_block (who : Writer) (e : Event) (s : State) :
    (afterCall who e s).block = applyWrites (nextWrites who s) s.block := rfl
@[simp] theorem afterCall_trace (who : Writer) (e : Event) (s : State) : (afterCall who e s).trace = s.trace ++ [e] := rfl
@[simp] theorem afterCall_answers (who : Writer) (e : Event) (s : State) :
    (afterCall who e s).answers = s.answers.tail := rfl
@[simp] theorem afterCall_mem (who : Writer) (e : Event) (s : State) : (afterCall who e s).mem = s.mem := rfl
@[simp] theorem afterCall_ram (who : Writer) (e : Event) (s : State) : (afterCall who e s).ram = s.ram := rfl
@[simp] theorem afterCall_loads (who : Writer) (e : Event) (s : State) : (afterCall who e s).loads = s.loads := rfl
@[simp] theorem afterCall_stores (who : Writer) (e : Event) (s : State) : (afterCall who e s).stores = s.stores := rfl
@[simp] theorem afterCall_dispatch (who : Writer) (e : Event) (s : State) :
    (afterCall who e s).dispatch = s.dispatch := rfl
@[simp] theorem afterCall_master (who : Writer) (e : Event) (s : State) : (afterCall who e s).master = s.master := rfl
@[simp] theorem afterCall_slots (who : Writer) (e : Event) (s : State) : (afterCall who e s).slots = s.slots := rfl
@[simp] theorem afterCall_hostCalls (who : Writer) (e : Event) (s : State) : (afterCall who e s).hostCalls = s.hostCalls := rfl
@[simp] theorem afterCall_initDone (who : Writer) (e : Event) (s : State) :
    (afterCall who e s).initDone = s.initDone := rfl
@[simp] theorem afterCall_resetDone (who : Writer) (e : Event) (s : State) :
    (afterCall who e s).resetDone = s.resetDone := rfl
@[simp] theorem afterCall_shutDown (who : Writer) (e : Event) (s : State) :
    (afterCall who e s).shutDown = s.shutDown := rfl
@[simp] theorem afterCall_draws (who : Writer) (e : Event) (s : State) :
    (afterCall who e s).draws = s.draws + (if s.answers.isEmpty then 1 else 0) := rfl

/-- A call changes nothing outside the block and the record of port calls. -/
theorem afterCall_sameSession (who : Writer) (e : Event) (s : State) : SameSession s (afterCall who e s) :=
  ⟨rfl, rfl, rfl, rfl, rfl, rfl, rfl, rfl⟩

theorem SameSession.refl (s : State) : SameSession s s := ⟨rfl, rfl, rfl, rfl, rfl, rfl, rfl, rfl⟩

theorem SameSession.trans {s t u : State} (h : SameSession s t) (h' : SameSession t u) : SameSession s u := by
  obtain ⟨a1, a2, a3, a4, a5, a6, a7, a8⟩ := h
  obtain ⟨b1, b2, b3, b4, b5, b6, b7, b8⟩ := h'
  exact ⟨b1.trans a1, b2.trans a2, b3.trans a3, b4.trans a4, b5.trans a5, b6.trans a6, b7.trans a7, b8.trans a8⟩

/-! ### Loads and stores -/

/-- The state a load leaves. -/
def afterLoad (addr : Word) (s : State) : State :=
  { (s.record (.load addr)).onBlock (fun b => { b with bus := loadedByte s s.draws addr }) with
    loads := if inRam s.ram addr then s.loads else s.loads.tail,
    draws := s.draws + (if inRam s.ram addr then 0 else if s.loads.isEmpty then 1 else 0) }

/-- A load that is answered (R62, R74). -/
theorem loadBus_ok {addr : Word} {s : State} (h : loadOk s addr = true) : loadBus addr s = .next (afterLoad addr s) := by
  unfold loadBus afterLoad loadedByte
  by_cases hr : inRam s.ram addr = true
  · simp [hr, State.onBlock, State.record]
  · simp only [Bool.not_eq_true] at hr
    simp only [loadOk, hr, Bool.false_or, decide_eq_true_eq] at h
    simp only [record_ram, record_loads, record_draws, hr, Bool.false_eq_true, if_false]
    rcases hl : s.loads with _ | ⟨_ | v, rest⟩
    · simp [State.onBlock, State.record, hl]
    · simp [hl] at h
    · simp [State.onBlock, State.record]

/-- A load that goes on was answered. -/
theorem loadBus_cases {addr : Word} {s t : State} (h : loadBus addr s = .next t) :
    t = afterLoad addr s ∧ loadOk s addr = true := by
  have hok : loadOk s addr = true := by
    unfold loadBus at h
    simp only [record_ram, record_loads] at h
    by_cases hr : inRam s.ram addr = true
    · simp [loadOk, hr]
    · simp only [hr, Bool.false_eq_true, if_false] at h
      rcases hl : s.loads with _ | ⟨_ | v, rest⟩
      · simp [loadOk, hl]
      · simp [hl] at h
      · simp [loadOk, hl]
  rw [loadBus_ok hok] at h
  cases h
  exact ⟨rfl, hok⟩

@[simp] theorem afterLoad_block (addr : Word) (s : State) :
    (afterLoad addr s).block = { s.block with bus := loadedByte s s.draws addr } := rfl
@[simp] theorem afterLoad_trace (addr : Word) (s : State) : (afterLoad addr s).trace = s.trace ++ [.load addr] := rfl
@[simp] theorem afterLoad_mem (addr : Word) (s : State) : (afterLoad addr s).mem = s.mem := rfl
@[simp] theorem afterLoad_answers (addr : Word) (s : State) : (afterLoad addr s).answers = s.answers := rfl
theorem afterLoad_sameSession (addr : Word) (s : State) : SameSession s (afterLoad addr s) :=
  ⟨rfl, rfl, rfl, rfl, rfl, rfl, rfl, rfl⟩

/-- The state a store leaves. -/
def afterStore (addr : Word) (v : Byte) (s : State) : State :=
  { s.record (.store addr v) with
    mem := if inRam s.ram addr then Memory.write s.mem addr.toNat v else s.mem,
    stores := if inRam s.ram addr then s.stores else s.stores.tail }

/-- A store that is answered (R63, R74). -/
theorem storeByte_ok {addr : Word} {s : State} (v : Byte) (h : storeOk s addr = true) :
    storeByte addr v s = .next (afterStore addr v s) := by
  unfold storeByte afterStore
  by_cases hr : inRam s.ram addr = true
  · simp [hr, State.record]
  · simp only [Bool.not_eq_true] at hr
    simp only [storeOk, hr, Bool.false_or, decide_eq_true_eq] at h
    simp only [record_ram, record_stores, hr, Bool.false_eq_true, if_false]
    rcases hl : s.stores with _ | ⟨_ | _, rest⟩
    · simp [State.record, hl]
    · simp [hl] at h
    · simp [State.record]

/-- A store that goes on was answered. -/
theorem storeByte_cases {addr : Word} {v : Byte} {s t : State} (h : storeByte addr v s = .next t) :
    t = afterStore addr v s ∧ storeOk s addr = true := by
  have hok : storeOk s addr = true := by
    unfold storeByte at h
    simp only [record_ram, record_stores] at h
    by_cases hr : inRam s.ram addr = true
    · simp [storeOk, hr]
    · simp only [hr, Bool.false_eq_true, if_false] at h
      rcases hl : s.stores with _ | ⟨_ | _, rest⟩
      · simp [storeOk, hl]
      · simp [hl] at h
      · simp [storeOk, hl]
  rw [storeByte_ok v hok] at h
  cases h
  exact ⟨rfl, hok⟩

@[simp] theorem afterStore_block (addr : Word) (v : Byte) (s : State) : (afterStore addr v s).block = s.block := rfl
@[simp] theorem afterStore_trace (addr : Word) (v : Byte) (s : State) :
    (afterStore addr v s).trace = s.trace ++ [.store addr v] := rfl
@[simp] theorem afterStore_mem (addr : Word) (v : Byte) (s : State) :
    (afterStore addr v s).mem = if inRam s.ram addr then Memory.write s.mem addr.toNat v else s.mem := rfl
@[simp] theorem afterStore_answers (addr : Word) (v : Byte) (s : State) :
    (afterStore addr v s).answers = s.answers := rfl
theorem afterStore_sameSession (addr : Word) (v : Byte) (s : State) : SameSession s (afterStore addr v s) :=
  ⟨rfl, rfl, rfl, rfl, rfl, rfl, rfl, rfl⟩

/-! ### Taking an interrupt -/

/-- The state interrupt entry leaves (R131). -/
def afterEntry (s : State) : State :=
  afterCall .setInterruptsEnabled (.setIE false)
    (s.onBlock fun b => { b with pc := zext16 b.irqVector, irqPending := false })

/-- An interrupt entry that is answered (R131). -/
theorem takeInterrupt_ok {s : State} (h : answersOk [.setInterruptsEnabled] s.answers = true) :
    takeInterrupt s = .next (afterEntry s) ∧
    LatchOnly { s.block with pc := zext16 s.block.irqVector, irqPending := false } (afterEntry s).block := by
  let entered := s.onBlock fun b => { b with pc := zext16 b.irqVector, irqPending := false }
  have h' : answersOk [.setInterruptsEnabled] entered.answers = true := h
  obtain ⟨hw, hc⟩ := callOut_ok (.setIE false) h'
  exact ⟨hc, applyWrites_raise hw entered.block⟩

/-- An interrupt entry that goes on was answered. -/
theorem takeInterrupt_cases {s t : State} (h : takeInterrupt s = .next t) :
    t = afterEntry s ∧ answersOk [.setInterruptsEnabled] s.answers = true :=
  ⟨(callOut_cases h).1, callOut_eq_next (s := s.onBlock _) h⟩

@[simp] theorem afterEntry_trace (s : State) : (afterEntry s).trace = s.trace ++ [.setIE false] := rfl
@[simp] theorem afterEntry_answers (s : State) : (afterEntry s).answers = s.answers.tail := rfl
@[simp] theorem afterEntry_mem (s : State) : (afterEntry s).mem = s.mem := rfl
theorem afterEntry_sameSession (s : State) : SameSession s (afterEntry s) := ⟨rfl, rfl, rfl, rfl, rfl, rfl, rfl, rfl⟩

/-- One call after another answered within the contract. -/
theorem answersOk_cons {who : Writer} {more : List Writer} {answers : List CallAnswer} :
    answersOk (who :: more) answers = true ↔ answersOk [who] answers = true ∧ answersOk more answers.tail = true := by
  cases answers with
  | nil => cases more <;> simp [answersOk]
  | cons a rest => simp [answersOk]

/-! ### The event check and the tick -/

/-- The state the event check leaves. -/
def afterCheck (s : State) : State := if eventDue s.block then afterCall .processEvents .processEvents s else s

/-- An event check that is answered (R116). -/
theorem eventCheck_ok {s : State} (h : answersOk (eventCaller (eventDue s.block)) s.answers = true) :
    eventCheck s = .next (afterCheck s) ∧
    (eventDue s.block = true → (nextWrites .processEvents s).all eventHookMay = true) := by
  unfold eventCheck afterCheck
  by_cases hd : eventDue s.block = true
  · simp only [hd, eventCaller, if_true] at h
    obtain ⟨h1, h2⟩ := callOut_ok .processEvents h
    exact ⟨by simp only [hd, if_true]; exact h2, fun _ => h1⟩
  · simp [hd]

/-- An event check that goes on was answered. -/
theorem eventCheck_cases {s t : State} (h : eventCheck s = .next t) :
    t = afterCheck s ∧ answersOk (eventCaller (eventDue s.block)) s.answers = true := by
  have hok : answersOk (eventCaller (eventDue s.block)) s.answers = true := by
    unfold eventCheck at h
    by_cases hd : eventDue s.block = true
    · simp only [hd, if_true] at h
      simpa [hd, eventCaller] using callOut_eq_next h
    · simp [hd, eventCaller, answersOk]
  rw [(eventCheck_ok hok).1] at h
  cases h
  exact ⟨rfl, hok⟩

/-- What the event check can have changed (R41, R116). -/
theorem afterCheck_leaves {s : State} (h : answersOk (eventCaller (eventDue s.block)) s.answers = true) :
    AfterEvent (eventDue s.block) s.block (afterCheck s).block ∧
    (afterCheck s).trace = s.trace ++ eventTrace (eventDue s.block) ∧ (afterCheck s).mem = s.mem ∧
    SameSession s (afterCheck s) := by
  have hw := (eventCheck_ok h).2
  unfold afterCheck
  by_cases hd : eventDue s.block = true
  · simp only [hd, if_true]
    obtain ⟨h1, h2⟩ := applyWrites_eventHook (hw hd) s.block
    exact ⟨⟨h1, by simp, h2⟩, rfl, rfl, afterCall_sameSession _ _ _⟩
  · simp only [hd, Bool.false_eq_true, if_false]
    exact ⟨⟨rfl, fun _ => rfl, .inr ⟨rfl, rfl⟩⟩, by simp [eventTrace], trivial, SameSession.refl s⟩

/-- A running tick whose body goes on is the event check of what the body left (R110). -/
theorem tick_of_body {code : StateCode} {body : State → Result} {s m : State} (hr : s.running = true)
    (hb : body (s.onBlock (beginTick code)) = .next m) : tick code body s = eventCheck m := by
  simp [tick, hr, hb]

/-- A tick that goes on: it was running, its body went on, and the event check followed (R110). -/
theorem tick_cases {code : StateCode} {body : State → Result} {s t : State} (h : tick code body s = .next t) :
    s.running = true ∧ ∃ m, body (s.onBlock (beginTick code)) = .next m ∧ t = afterCheck m ∧
      answersOk (eventCaller (eventDue m.block)) m.answers = true := by
  unfold tick at h
  split at h
  · next hr =>
    obtain ⟨m, h1, h2⟩ := andThen_eq_next h
    exact ⟨hr, m, h1, eventCheck_cases h2⟩
  · cases h

/-- The answers left after calls made one after the other. -/
theorem answersAfter_append (answers : List CallAnswer) (es es' : List Event) :
    answersAfter answers (es ++ es') = answersAfter (answersAfter answers es) es' := by
  induction es generalizing answers with
  | nil => rfl
  | cons e es ih => exact ih _

/-- The event hook's answer is taken and its writes are made (R116, R117). -/
theorem afterCheck_hook (s : State) :
    HookWrites (eventDue s.block) s.answers s.block (afterCheck s) ∧
    (afterCheck s).answers = answersAfter s.answers (eventTrace (eventDue s.block)) := by
  unfold afterCheck
  by_cases hd : eventDue s.block = true
  · simp only [hd, if_true]
    refine ⟨⟨fun ws rest _ ha => ?_, fun _ ha => ⟨s.draws, ?_, ?_⟩⟩, rfl⟩
    · rw [afterCall_block, nextWrites, ha]
    · simp [ha]
    · rw [afterCall_block, nextWrites, ha]; rfl
  · simp only [hd, Bool.false_eq_true, if_false]
    exact ⟨⟨fun _ _ h => by (cases h), fun h => by (cases h)⟩, by simp [eventTrace, answersAfter]⟩

/-- A running tick completes where its body goes on and the event hook is answered; what it leaves is what the body left, but
for the event hook (R110, R116). -/
theorem tick_completes {code : StateCode} {body : State → Result} {s m : State} {calls : List Event}
    (hr : s.running = true) (hb : body (s.onBlock (beginTick code)) = .next m)
    (ha : answersOk (eventCaller (eventDue m.block)) m.answers = true) (htr : m.trace = s.trace ++ calls)
    (han : m.answers = answersAfter s.answers calls) (hs : SameSession s m) :
    ∃ t, tick code body s = .next t ∧ TickLeaves s m.block calls t ∧ t.mem = m.mem := by
  obtain ⟨h1, h2, h3, h4⟩ := afterCheck_leaves ha
  obtain ⟨h5, h6⟩ := afterCheck_hook m
  exact ⟨afterCheck m, by rw [tick_of_body hr hb, (eventCheck_ok ha).1],
    ⟨h1, by rw [← han]; exact h5, by rw [h2, htr], by rw [h6, han, answersAfter_append], hs.trans h4⟩, h3⟩

end Sys2Proof.Machine
end

