-- ==== Sys2Proof/Laws/Control.lean ====
section
/-! SUPPORT. What the operations of the control surface can do: the lifecycle operations as one list of hook calls, and every
operation's next state said once (44_control_surface.md, R210, R252). -/

namespace Sys2Proof.Machine

/-- Hook calls made one after the other, each with its event and its caller. -/
def makeCalls : List (Event × Writer) → State → Result
  | [], s => .next s
  | (e, who) :: more, s => andThen (callOut who e s) (makeCalls more)

/-- Calls in two runs. -/
theorem makeCalls_append (cs cs' : List (Event × Writer)) (s : State) :
    makeCalls (cs ++ cs') s = andThen (makeCalls cs s) (makeCalls cs') := by
  induction cs generalizing s with
  | nil => rfl
  | cons c cs ih =>
    simp only [List.cons_append, makeCalls, andThen_assoc]
    exact congrArg _ (funext ih)

/-- A component's `init` hook as a list of calls. -/
theorem callInit_eq (e : Event) (c : Component) (s : State) :
    callInit e c s = makeCalls (if c.hasInit then [(e, .componentInit c)] else []) s := by
  unfold callInit
  split
  · exact (by simp only [makeCalls]; cases callOut (.componentInit c) e s <;> rfl)
  · rfl

/-- A component's `deinit` hook as a list of calls. -/
theorem callDeinit_eq (e : Event) (c : Component) (s : State) :
    callDeinit e c s = makeCalls (if c.hasDeinit then [(e, .componentDeinit c)] else []) s := by
  unfold callDeinit
  split
  · exact (by simp only [makeCalls]; cases callOut (.componentDeinit c) e s <;> rfl)
  · rfl

/-- The slots' `init` hooks as a list of calls (R182). -/
theorem initSlots_eq (i : Nat) (l : List (Option Component)) (s : State) :
    initSlots i l s = makeCalls (initCalls i l) s := by
  induction l generalizing i s with
  | nil => rfl
  | cons c l ih =>
    cases c with
    | none => exact ih _ _
    | some c =>
      simp only [initSlots, initCalls, makeCalls_append, callInit_eq]
      exact congrArg _ (funext (ih _))

/-- The slots' `deinit` hooks as a list of calls (R183). -/
theorem deinitSlots_eq (i : Nat) (l : List (Option Component)) (s : State) :
    deinitSlots i l s = makeCalls (deinitCalls i l) s := by
  induction l generalizing i s with
  | nil => rfl
  | cons c l ih =>
    cases c with
    | none => exact ih _ _
    | some c =>
      simp only [deinitSlots, deinitCalls, makeCalls_append, callDeinit_eq]
      exact congrArg _ (funext (ih _))

/-- Component hooks call RaiseIRQ or nothing (R187). -/
def ComponentCalls (cs : List (Event × Writer)) : Prop := ∀ c ∈ cs, admits c.2 = BlockWrite.isRaise

/-- What calls of component hooks that go on can have done: only the latch (R187), and the calls are recorded. -/
theorem makeCalls_cases {cs : List (Event × Writer)} (hc : ComponentCalls cs) {s t : State}
    (h : makeCalls cs s = .next t) :
    LatchOnly s.block t.block ∧ t.mem = s.mem ∧ SameSession s t ∧ t.trace = s.trace ++ cs.map (·.1) := by
  induction cs generalizing s with
  | nil => cases h; exact ⟨LatchOnly.refl _, rfl, SameSession.refl _, (List.append_nil _).symm⟩
  | cons c cs ih =>
    obtain ⟨e, who⟩ := c
    obtain ⟨m, h1, h2⟩ := andThen_eq_next h
    obtain ⟨rfl, hw⟩ := callOut_cases h1
    obtain ⟨b1, b2, b3, b4⟩ := ih (fun c hm => hc c (List.mem_cons_of_mem _ hm)) h2
    rw [hc (e, who) List.mem_cons_self] at hw
    exact ⟨(applyWrites_raise hw s.block).trans b1, b2, (afterCall_sameSession who e s).trans b3,
      by rw [b4, afterCall_trace]; simp⟩

/-- Calls answered within the contract go on, and each takes one answer (R40, R41). -/
theorem makeCalls_ok {cs : List (Event × Writer)} {s : State} (ha : answersOk (cs.map (·.2)) s.answers = true) :
    ∃ t, makeCalls cs s = .next t ∧ t.answers = s.answers.drop cs.length ∧ t.trace = s.trace ++ cs.map (·.1) := by
  induction cs generalizing s with
  | nil => exact ⟨s, rfl, rfl, (List.append_nil _).symm⟩
  | cons c cs ih =>
    obtain ⟨e, who⟩ := c
    obtain ⟨h1, h2⟩ := answersOk_cons.1 ha
    obtain ⟨-, h3⟩ := callOut_ok e h1
    obtain ⟨t, h4, h5, h6⟩ := ih (s := afterCall who e s) h2
    exact ⟨t, by simp only [makeCalls, h3, andThen_next, h4], by rw [h5]; simp,
      by rw [h6, afterCall_trace]; simp⟩

/-- Calls whose answers are all scripted make the answers' writes in order (R10). -/
theorem makeCalls_scripted {cs : List (Event × Writer)} {s t : State} {as rest : List CallAnswer}
    (h : makeCalls cs s = .next t) (ha : s.answers = as ++ rest) (hl : as.length = cs.length) :
    t.block = applyWrites (as.flatMap CallAnswer.writes) s.block ∧ t.answers = rest := by
  induction cs generalizing s as with
  | nil => cases h; cases as with
    | nil => exact ⟨rfl, ha⟩
    | cons a as => cases hl
  | cons c cs ih =>
    obtain ⟨e, who⟩ := c
    cases as with
    | nil => cases hl
    | cons a as =>
      obtain ⟨m, h1, h2⟩ := andThen_eq_next h
      obtain ⟨rfl, -⟩ := callOut_cases h1
      obtain ⟨h3, h4⟩ := ih (as := as) h2 (by rw [afterCall_answers, ha]; rfl) (by simpa using hl)
      refine ⟨?_, h4⟩
      have hn : nextWrites who s = a.writes := by
        rw [nextWrites, ha]
        cases a <;> rfl
      rw [h3, afterCall_block, hn]
      simp [applyWrites]

/-- All the calls of Initialize and Shutdown are component hooks' (R182, R183). -/
theorem initCalls_component (i : Nat) (l : List (Option Component)) : ComponentCalls (initCalls i l) := by
  induction l generalizing i with
  | nil => exact fun c h => by cases h
  | cons c l ih =>
    cases c with
    | none => exact ih _
    | some c =>
      intro x hx
      rcases List.mem_append.1 hx with hx | hx
      · split at hx
        · rw [List.mem_singleton.1 hx]; rfl
        · cases hx
      · exact ih _ x hx

theorem deinitCalls_component (i : Nat) (l : List (Option Component)) : ComponentCalls (deinitCalls i l) := by
  induction l generalizing i with
  | nil => exact fun c h => by cases h
  | cons c l ih =>
    cases c with
    | none => exact ih _
    | some c =>
      intro x hx
      rcases List.mem_append.1 hx with hx | hx
      · split at hx
        · rw [List.mem_singleton.1 hx]; rfl
        · cases hx
      · exact ih _ x hx

theorem initializeCalls_component (s : State) : ComponentCalls (initializeCalls s) := by
  intro x hx
  rcases List.mem_append.1 hx with hx | hx
  · split at hx
    · rw [List.mem_singleton.1 hx]; rfl
    · cases hx
  · exact initCalls_component _ _ x hx

theorem shutdownCalls_component (s : State) : ComponentCalls (shutdownCalls s) := by
  intro x hx
  rcases List.mem_append.1 hx with hx | hx
  · split at hx
    · rw [List.mem_singleton.1 hx]; rfl
    · cases hx
  · exact deinitCalls_component _ _ x hx

/-- A chain whose second part depends on the state only through what the first part keeps. -/
theorem andThen_congr {r : Result} {f g : State → Result} (h : ∀ m, r = .next m → f m = g m) :
    andThen r f = andThen r g := by
  cases r with
  | next m => exact h m rfl
  | fault _ => rfl
  | refused _ => rfl

/-- Initialize, where it is not refused, is its list of calls and the mark (R182). -/
theorem runInitialize_eq {s : State} (hi : s.initDone = false) (hs : s.shutDown = false) :
    runInitialize s = andThen (makeCalls (initializeCalls s) s) fun s => .next { s with initDone := true } := by
  have hm : ComponentCalls (if s.master.hasInit then [(Event.initMaster, Writer.componentInit s.master)] else []) := by
    intro x hx
    exact initializeCalls_component s x (List.mem_append_left _ hx)
  rw [runInitialize, if_neg (by simp [hi, hs]), initializeCalls, makeCalls_append, andThen_assoc, callInit_eq]
  refine andThen_congr fun m h => ?_
  rw [initSlots_eq, (makeCalls_cases hm h).2.2.1.2.2.2.2.2.1]

/-- Shutdown, where it is not refused, is its list of calls and the mark (R183). -/
theorem runShutdown_eq {s : State} (hi : s.initDone = true) (hs : s.shutDown = false) :
    runShutdown s = andThen (makeCalls (shutdownCalls s) s) fun s => .next { s with shutDown := true } := by
  have hm : ComponentCalls (if s.master.hasDeinit then [(Event.deinitMaster, Writer.componentDeinit s.master)] else []) := by
    intro x hx
    exact shutdownCalls_component s x (List.mem_append_left _ hx)
  rw [runShutdown, if_neg (by simp [hi, hs]), shutdownCalls, makeCalls_append, andThen_assoc, callDeinit_eq]
  refine andThen_congr fun m h => ?_
  rw [deinitSlots_eq, (makeCalls_cases hm h).2.2.1.2.2.2.2.2.1]

/-- The call that stops a list of calls stops it with its own fault: those before it are answered, it is not. -/
theorem makeCalls_stops {done more : List (Event × Writer)} {e : Event} {who : Writer} {s : State} {x : Fault}
    {as rest : List CallAnswer} (ha : s.answers = as ++ rest) (hl : as.length = done.length)
    (hok : answersOk (done.map (·.2)) as = true)
    (hx : ∀ m : State, m.answers = rest → m.trace = s.trace ++ done.map (·.1) → callOut who e m = .fault x) :
    makeCalls (done ++ (e, who) :: more) s = .fault x := by
  have hok' : answersOk (done.map (·.2)) s.answers = true := by
    rw [ha]
    clear hx ha
    induction done generalizing as with
    | nil => rfl
    | cons c done ih =>
      cases as with
      | nil => cases hl
      | cons a as =>
        simp only [List.map_cons, List.cons_append, answersOk, Bool.and_eq_true] at hok ⊢
        exact ⟨hok.1, ih (by simpa using hl) hok.2⟩
  obtain ⟨m, h1, h2, h3⟩ := makeCalls_ok hok'
  rw [makeCalls_append, h1, andThen_next]
  simp only [makeCalls]
  rw [hx m (by rw [h2, ha, ← hl, List.drop_left]) h3]
  rfl

/-- An operation that goes on was not refused after Shutdown (R189). -/
theorem unlessShutDown_eq_next {s t : State} {r : Result} (h : unlessShutDown s r = .next t) :
    s.shutDown = false ∧ r = .next t := by
  unfold unlessShutDown at h
  split at h
  · cases h
  · next hs => exact ⟨by simpa using hs, h⟩

/-- Before Shutdown the refusal of R189 does not arise. -/
theorem unlessShutDown_ok {s : State} (hs : s.shutDown = false) (r : Result) : unlessShutDown s r = r := by
  simp [unlessShutDown, hs]

/-- Reset, where its hook is answered within the contract (R252). -/
theorem runReset_ok {s : State} (hs : s.shutDown = false) (ha : answersOk [.resetHook] s.answers = true) :
    runReset s = .next { afterCall .resetHook .resetHook (s.onBlock resetBlock) with resetDone := true } ∧
    HookLeaves (resetBlock s.block) (afterCall .resetHook .resetHook (s.onBlock resetBlock)).block := by
  obtain ⟨hw, hc⟩ := callOut_ok (s := s.onBlock resetBlock) .resetHook ha
  refine ⟨?_, applyWrites_eventHook hw _⟩
  rw [runReset, unlessShutDown_ok hs, hc, andThen_next]

/-- A hotplug hook's calls are a component's. -/
theorem initOne_component (e : Event) (c : Component) :
    ComponentCalls (if c.hasInit then [(e, .componentInit c)] else []) := by
  intro x hx
  split at hx
  · rw [List.mem_singleton.1 hx]; rfl
  · cases hx

theorem deinitOne_component (e : Event) (c : Component) :
    ComponentCalls (if c.hasDeinit then [(e, .componentDeinit c)] else []) := by
  intro x hx
  split at hx
  · rw [List.mem_singleton.1 hx]; rfl
  · cases hx

/-- What an operation of the host leaves of the block, where it goes on (R188, R210, R252). -/
def OpLeaves (op : HostOp) (b c : Block) : Prop :=
  match op with
  | .attachComponents _ _ => c = b
  | .callInitialize => LatchOnly b c
  | .callShutdown => LatchOnly b c
  | .hotplugAttach _ => LatchOnly b c
  | .hotplugDetach _ => LatchOnly b c
  | .callReset => HookLeaves (resetBlock b) c
  | .raiseIRQ v => c = raiseIRQ v b

/-- Everything an operation of the host that goes on can have done: it was before Shutdown, memory and configuration are kept
but for AttachComponents, events are only added to the trace, and the block is left as `OpLeaves` says. -/
theorem perform_cases {op : HostOp} {s t : State} (h : perform op s = .next t) :
    s.shutDown = false ∧ t.mem = s.mem ∧ t.dispatch = s.dispatch ∧ t.ram = s.ram ∧ t.hostCalls = s.hostCalls ∧
    (t.shutDown = true → t.initDone = true) ∧
    ((∀ m l, op ≠ .attachComponents m l) → t.master = s.master ∧ t.slots = s.slots) ∧
    (∃ evs, t.trace = s.trace ++ evs) ∧ OpLeaves op s.block t.block := by
  cases op with
  | attachComponents m l =>
    obtain ⟨h1, h2⟩ := unlessShutDown_eq_next h
    cases m with
    | none => cases h2
    | some m => cases h2; exact ⟨h1, rfl, rfl, rfl, rfl, by simp [h1], by simp, ⟨[], by simp⟩, rfl⟩
  | callInitialize =>
    by_cases hh : s.initDone = true ∨ s.shutDown = true
    · rw [perform, runInitialize, if_pos (by simpa using hh)] at h
      cases h
    · obtain ⟨hi, hs⟩ := not_or.1 hh
      simp only [Bool.not_eq_true] at hi hs
      rw [perform, runInitialize_eq hi hs] at h
      obtain ⟨m, h1, h2⟩ := andThen_eq_next h
      cases h2
      obtain ⟨b, hm, c, htr⟩ := makeCalls_cases (initializeCalls_component s) h1
      exact ⟨hs, hm, c.2.2.2.1, c.2.2.2.2.2.2.1, c.2.2.2.2.2.2.2, fun _ => rfl,
        fun _ => ⟨c.2.2.2.2.1, c.2.2.2.2.2.1⟩, ⟨_, htr⟩, b⟩
  | callShutdown =>
    by_cases hh : s.initDone = false ∨ s.shutDown = true
    · rw [perform, runShutdown, if_pos (by simpa using hh)] at h
      cases h
    · obtain ⟨hi, hs⟩ := not_or.1 hh
      simp only [Bool.not_eq_false, Bool.not_eq_true] at hi hs
      rw [perform, runShutdown_eq hi hs] at h
      obtain ⟨m, h1, h2⟩ := andThen_eq_next h
      cases h2
      obtain ⟨b, hm, c, htr⟩ := makeCalls_cases (shutdownCalls_component s) h1
      exact ⟨hs, hm, c.2.2.2.1, c.2.2.2.2.2.2.1, c.2.2.2.2.2.2.2, fun _ => c.1.trans hi,
        fun _ => ⟨c.2.2.2.2.1, c.2.2.2.2.2.1⟩, ⟨_, htr⟩, b⟩
  | hotplugAttach i =>
    obtain ⟨hs, h⟩ := unlessShutDown_eq_next h
    split at h
    · rw [callInit_eq] at h
      obtain ⟨b, hm, c, htr⟩ := makeCalls_cases (initOne_component _ _) h
      exact ⟨hs, hm, c.2.2.2.1, c.2.2.2.2.2.2.1, c.2.2.2.2.2.2.2, by simp [c.2.2.1, hs],
        fun _ => ⟨c.2.2.2.2.1, c.2.2.2.2.2.1⟩, ⟨_, htr⟩, b⟩
    all_goals cases h; exact ⟨hs, rfl, rfl, rfl, rfl, by simp [hs], by simp, ⟨[], by simp⟩, LatchOnly.refl _⟩
  | hotplugDetach i =>
    obtain ⟨hs, h⟩ := unlessShutDown_eq_next h
    split at h
    · rw [callDeinit_eq] at h
      obtain ⟨b, hm, c, htr⟩ := makeCalls_cases (deinitOne_component _ _) h
      exact ⟨hs, hm, c.2.2.2.1, c.2.2.2.2.2.2.1, c.2.2.2.2.2.2.2, by simp [c.2.2.1, hs],
        fun _ => ⟨c.2.2.2.2.1, c.2.2.2.2.2.1⟩, ⟨_, htr⟩, b⟩
    all_goals cases h; exact ⟨hs, rfl, rfl, rfl, rfl, by simp [hs], by simp, ⟨[], by simp⟩, LatchOnly.refl _⟩
  | callReset =>
    obtain ⟨hs, h⟩ := unlessShutDown_eq_next h
    obtain ⟨m, h1, h2⟩ := andThen_eq_next h
    cases h2
    obtain ⟨rfl, hw⟩ := callOut_cases h1
    exact ⟨hs, rfl, rfl, rfl, rfl, by simp [hs], by simp, ⟨_, rfl⟩, applyWrites_eventHook hw (resetBlock s.block)⟩
  | raiseIRQ v =>
    obtain ⟨hs, h⟩ := unlessShutDown_eq_next h
    cases h
    exact ⟨hs, rfl, rfl, rfl, rfl, by simp [hs], by simp, ⟨[], by simp⟩, rfl⟩

end Sys2Proof.Machine
end

