-- ==== Sys2Proof/Laws/Decode.lean ====
section
/-! SUPPORT. The laws of the decoder. -/

namespace Sys2Proof

/-- A word of the state register's width stands for its micro-state (R90, R91). -/
theorem decodeWord_state4 {w : Nat} (h : w < 16) : decodeWord .state4 w = .ok (decodeState (BitVec.ofNat 4 w)) := by
  simp only [decodeWord, if_pos h]

/-- A word of an opcode's width stands for its dispatch (R96). -/
theorem decodeWord_opByte8 {w : Nat} (h : w < 256) : decodeWord .opByte8 w = .ok (.dispatch (BitVec.ofNat 8 w)) := by
  simp only [decodeWord, if_pos h, decodeOpcode]

/-- A word that decodes fits its format. -/
theorem decodeWord_ok {f : Format} {w : Nat} {i : Instr} (h : decodeWord f w = .ok i) :
    (f = .state4 ∧ w < 16 ∧ i = decodeState (BitVec.ofNat 4 w)) ∨
    (f = .opByte8 ∧ w < 256 ∧ i = .dispatch (BitVec.ofNat 8 w)) := by
  cases f with
  | state4 =>
    by_cases hw : w < 16
    · rw [decodeWord_state4 hw] at h
      exact .inl ⟨rfl, hw, (Except.ok.inj h).symm⟩
    · simp only [decodeWord, if_neg hw] at h
      cases h
  | opByte8 =>
    by_cases hw : w < 256
    · rw [decodeWord_opByte8 hw] at h
      exact .inr ⟨rfl, hw, (Except.ok.inj h).symm⟩
    · simp only [decodeWord, if_neg hw] at h
      cases h

/-- A micro-state decoded from a code stands at that code (R12, R91). -/
theorem code_decodeState (code : StateCode) : (decodeState code).code = code := by
  revert code; decide

/-- A table word is decoded in the format its value selects. -/
theorem decodeTableWord_some {nbits w : Nat} {i : Instr} (h : decodeTableWord nbits w = some i) :
    w < 2 ^ nbits ∧ w < 256 ∧ decodeWord (tableFormat w) w = .ok i := by
  unfold decodeTableWord at h
  split at h
  · next hw =>
    refine ⟨hw.1, hw.2, ?_⟩
    have hm : (BitVec.ofNat 8 w).toNat = w := by
      rw [BitVec.toNat_ofNat]; exact Nat.mod_eq_of_lt hw.2
    simp only [decodeBytes, hm] at h
    cases hd : decodeWord (tableFormat w) w with
    | ok j => rw [hd] at h; cases h; rfl
    | error e => rw [hd] at h; cases h
  · cases h

end Sys2Proof
end

