-- ==== Sys2Proof/Laws/Exec.lean ====
section
/-! SUPPORT. What an instruction can do: every instruction is one tick with a body of its own, and each body's next state is
said once, so that rules over all instructions are case splits over these lemmas. -/

namespace Sys2Proof.Machine

/-- Step 3 of the tick that runs an instruction (R114). -/
def bodyOf : Instr → State → Result
  | .fetch, s => fetchBody s
  | .decode, s => dispatchBody (opcode s.block) s
  | .execute, s => executeBody s
  | .slot3, s => .next s
  | .memoryLoad, s => loadBus (indexAddress s.block) s
  | .memoryStore, s => storeByte (indexAddress s.block) (storeData s.block) s
  | .readPc, s => readPcBody s
  | .memoryMoveIndexLoad, s => .next (forceState 4 s)
  | .memoryMoveIndexStore, s => .next (forceState 5 s)
  | .readPcStall, s => .next s
  | .stall, s => .next s
  | .illegalState11, s => .fault (.illegalState 11 none s.trace)
  | .illegalState12, s => .fault (.illegalState 12 none s.trace)
  | .illegalState13, s => .fault (.illegalState 13 none s.trace)
  | .illegalState14, s => .fault (.illegalState 14 none s.trace)
  | .illegalState15, s => .fault (.illegalState 15 none s.trace)
  | .dispatch op, s => dispatchBody op s

/-- Every instruction is one tick of its code and its body (R110, R114). -/
theorem exec_eq_tick (i : Instr) (s : State) : exec i s = tick i.code (bodyOf i) s := by
  cases i <;> rfl

/-- FETCH's body without an interrupt pending. -/
theorem fetchBody_cases_quiet {s m : State} (hp : s.block.irqPending = false) (h : fetchBody s = .next m) :
    m = afterLoad s.block.pc s ∧ loadOk s s.block.pc = true := by
  simp only [fetchBody, hp, Bool.false_eq_true, if_false, andThen_next] at h
  exact loadBus_cases h

/-- FETCH's body with an interrupt pending. -/
theorem fetchBody_cases_pending {s m : State} (hp : s.block.irqPending = true) (h : fetchBody s = .next m) :
    m = afterLoad (zext16 s.block.irqVector) (afterEntry s) ∧ answersOk [.setInterruptsEnabled] s.answers = true ∧
    loadOk s (zext16 s.block.irqVector) = true := by
  obtain ⟨m1, h1, h2⟩ := andThen_eq_next h
  simp only [hp, if_true] at h1
  obtain ⟨rfl, ha⟩ := takeInterrupt_cases h1
  have hpc : pcAddress (afterEntry s).block = zext16 s.block.irqVector := by
    rw [pcAddress, (takeInterrupt_ok ha).2.1]
  rw [hpc] at h2
  obtain ⟨h3, h4⟩ := loadBus_cases h2
  exact ⟨h3, ha, h4⟩

/-- EXECUTE's body. -/
theorem executeBody_cases {s m : State} (h : executeBody s = .next m) :
    ∃ r, s.block.ir = some r ∧ m = afterCall (.handler r) (.exec r) s ∧
      (nextWrites (.handler r) s).all handlerMay = true := by
  unfold executeBody at h
  split at h
  · cases h
  · next r hr =>
    obtain ⟨h1, h2⟩ := callOut_cases h
    exact ⟨r, hr, h1, h2⟩

/-- READ_PC's body. -/
theorem readPcBody_cases {s m : State} (h : readPcBody s = .next m) :
    m = forceState 9 ((afterLoad s.block.pc s).onBlock fun b => { b with pc := b.pc + 1 }) ∧
    loadOk s s.block.pc = true := by
  obtain ⟨m1, h1, h2⟩ := andThen_eq_next h
  obtain ⟨rfl, ha⟩ := loadBus_cases (show loadBus s.block.pc s = .next m1 from h1)
  cases h2
  exact ⟨rfl, ha⟩

/-- The block an instruction's body leaves, where it goes on: for every instruction but EXECUTE it is the block it found with
the fields its rule names. -/
def BodyLeaves (i : Instr) (b m : Block) : Prop :=
  match i with
  | .fetch =>
    (b.irqPending = true ∧
      m = { b with
        pc := zext16 b.irqVector, bus := m.bus, irqPending := m.irqPending, irqVector := m.irqVector }) ∨
    (b.irqPending = false ∧ m = { b with bus := m.bus })
  | .decode => m = { b with ir := m.ir, pc := b.pc + 1 }
  | .dispatch _ => m = { b with ir := m.ir, pc := b.pc + 1 }
  | .execute => ∃ ws, ws.all handlerMay = true ∧ m = applyWrites ws b
  | .memoryLoad => m = { b with bus := m.bus }
  | .readPc => m = { b with bus := m.bus, pc := b.pc + 1, state := 9 }
  | .memoryMoveIndexLoad => m = { b with state := 4 }
  | .memoryMoveIndexStore => m = { b with state := 5 }
  | .memoryStore => m = b
  | .slot3 => m = b
  | .readPcStall => m = b
  | .stall => m = b
  | .illegalState11 => False
  | .illegalState12 => False
  | .illegalState13 => False
  | .illegalState14 => False
  | .illegalState15 => False

/-- What an instruction's body leaves of the block, where it goes on. -/
theorem body_leaves {i : Instr} {s m : State} (h : bodyOf i s = .next m) : BodyLeaves i s.block m.block := by
  cases i with
  | fetch =>
    by_cases hp : s.block.irqPending = true
    · obtain ⟨rfl, h2, -⟩ := fetchBody_cases_pending hp h
      have h4 := (takeInterrupt_ok h2).2.1
      exact .inl ⟨hp, by rw [afterLoad_block, h4]⟩
    · have hp' : s.block.irqPending = false := by simpa using hp
      obtain ⟨rfl, -⟩ := fetchBody_cases_quiet hp' h
      exact .inr ⟨hp', rfl⟩
  | decode => cases h; rfl
  | execute =>
    obtain ⟨r, -, rfl, h3⟩ := executeBody_cases h
    exact ⟨_, h3, rfl⟩
  | slot3 => cases h; rfl
  | memoryLoad => obtain ⟨rfl, -⟩ := loadBus_cases h; rfl
  | memoryStore => obtain ⟨rfl, -⟩ := storeByte_cases h; rfl
  | readPc => obtain ⟨rfl, -⟩ := readPcBody_cases h; rfl
  | memoryMoveIndexLoad => cases h; rfl
  | memoryMoveIndexStore => cases h; rfl
  | readPcStall => cases h; rfl
  | stall => cases h; rfl
  | dispatch op => cases h; rfl
  | illegalState11 => cases h
  | illegalState12 => cases h
  | illegalState13 => cases h
  | illegalState14 => cases h
  | illegalState15 => cases h

/-- An instruction's body changes nothing of the session outside the block, the memory and the record of port calls. -/
theorem body_sameSession {i : Instr} {s m : State} (h : bodyOf i s = .next m) : SameSession s m := by
  cases i with
  | fetch =>
    by_cases hp : s.block.irqPending = true
    · rw [(fetchBody_cases_pending hp h).1]
      exact (afterEntry_sameSession s).trans (afterLoad_sameSession _ _)
    · rw [(fetchBody_cases_quiet (by simpa using hp) h).1]; exact afterLoad_sameSession _ _
  | execute => obtain ⟨r, -, h2, -⟩ := executeBody_cases h; rw [h2]; exact afterCall_sameSession _ _ _
  | memoryLoad => rw [(loadBus_cases h).1]; exact afterLoad_sameSession _ _
  | memoryStore => rw [(storeByte_cases h).1]; exact afterStore_sameSession _ _ _
  | readPc => rw [(readPcBody_cases h).1]; exact afterLoad_sameSession s.block.pc s
  | decode => cases h; exact SameSession.refl s
  | slot3 => cases h; exact SameSession.refl s
  | memoryMoveIndexLoad => cases h; exact SameSession.refl s
  | memoryMoveIndexStore => cases h; exact SameSession.refl s
  | readPcStall => cases h; exact SameSession.refl s
  | stall => cases h; exact SameSession.refl s
  | dispatch op => cases h; exact SameSession.refl s
  | illegalState11 => cases h
  | illegalState12 => cases h
  | illegalState13 => cases h
  | illegalState14 => cases h
  | illegalState15 => cases h

/-- An instruction's body changes the RAM contents only as MEMORY_STORE does (R151). -/
theorem body_mem {i : Instr} {s m : State} (h : bodyOf i s = .next m) :
    m.mem = s.mem ∨ i = .memoryStore ∧ m.mem = Memory.write s.mem s.block.index.toNat s.block.bus := by
  cases i with
  | fetch =>
    by_cases hp : s.block.irqPending = true
    · rw [(fetchBody_cases_pending hp h).1]; exact .inl rfl
    · rw [(fetchBody_cases_quiet (by simpa using hp) h).1]; exact .inl rfl
  | execute => obtain ⟨r, -, h2, -⟩ := executeBody_cases h; rw [h2]; exact .inl rfl
  | memoryLoad => rw [(loadBus_cases h).1]; exact .inl rfl
  | memoryStore =>
    rw [(storeByte_cases h).1, afterStore_mem]
    split
    · exact .inr ⟨rfl, rfl⟩
    · exact .inl rfl
  | readPc => rw [(readPcBody_cases h).1]; exact .inl rfl
  | decode => cases h; exact .inl rfl
  | slot3 => cases h; exact .inl rfl
  | memoryMoveIndexLoad => cases h; exact .inl rfl
  | memoryMoveIndexStore => cases h; exact .inl rfl
  | readPcStall => cases h; exact .inl rfl
  | stall => cases h; exact .inl rfl
  | dispatch op => cases h; exact .inl rfl
  | illegalState11 => cases h
  | illegalState12 => cases h
  | illegalState13 => cases h
  | illegalState14 => cases h
  | illegalState15 => cases h

/-- The port calls an instruction's body makes, where it goes on, and the answers they take (R66, R120). -/
theorem body_portCalls {i : Instr} {s m : State} (h : bodyOf i (s.onBlock (beginTick i.code)) = .next m) :
    m.trace = s.trace ++ portCalls i s ∧ m.answers = hookAnswers i s := by
  unfold hookAnswers
  cases i with
  | fetch =>
    have h : fetchBody (s.onBlock (beginTick 0)) = .next m := h
    by_cases hp : s.block.irqPending = true
    · rw [(fetchBody_cases_pending (by exact hp) h).1]
      simp [portCalls, hp, answersAfter, Event.isCall]
    · simp only [Bool.not_eq_true] at hp
      rw [(fetchBody_cases_quiet (by exact hp) h).1]
      simp [portCalls, hp, answersAfter, Event.isCall]
  | execute =>
    obtain ⟨r, hr, rfl, -⟩ := executeBody_cases h
    have hr : s.block.ir = some r := hr
    simp [portCalls, hr, answersAfter, Event.isCall]
  | memoryLoad => rw [(loadBus_cases h).1]; exact ⟨rfl, rfl⟩
  | memoryStore => rw [(storeByte_cases h).1]; exact ⟨rfl, rfl⟩
  | readPc => rw [(readPcBody_cases h).1]; exact ⟨rfl, rfl⟩
  | decode => cases h; exact ⟨(List.append_nil _).symm, rfl⟩
  | slot3 => cases h; exact ⟨(List.append_nil _).symm, rfl⟩
  | memoryMoveIndexLoad => cases h; exact ⟨(List.append_nil _).symm, rfl⟩
  | memoryMoveIndexStore => cases h; exact ⟨(List.append_nil _).symm, rfl⟩
  | readPcStall => cases h; exact ⟨(List.append_nil _).symm, rfl⟩
  | stall => cases h; exact ⟨(List.append_nil _).symm, rfl⟩
  | dispatch op => cases h; exact ⟨(List.append_nil _).symm, rfl⟩
  | illegalState11 => cases h
  | illegalState12 => cases h
  | illegalState13 => cases h
  | illegalState14 => cases h
  | illegalState15 => cases h

/-- Outside EXECUTE the event check compares the deadline the tick began with (R116). -/
theorem body_due {i : Instr} {s m : State} (hi : i ≠ .execute) (h : bodyOf i (s.onBlock (beginTick i.code)) = .next m) :
    eventDue m.block = deadlineReached s := by
  have hb := body_leaves h
  have key : m.block.cycles = s.block.cycles + 1 ∧ m.block.nextEvent = s.block.nextEvent := by
    cases i <;> simp only [BodyLeaves] at hb <;> try (rw [hb]; exact ⟨rfl, rfl⟩)
    · rcases hb with ⟨-, hb⟩ | ⟨-, hb⟩ <;> (rw [hb]; exact ⟨rfl, rfl⟩)
    · exact absurd rfl hi
  simp only [eventDue, deadlineReached, key]

/-- FETCH's body with an interrupt pending goes on where its two port calls are answered. -/
theorem fetchBody_ok_pending {s : State} (hp : s.block.irqPending = true)
    (ha : answersOk [.setInterruptsEnabled] s.answers = true) (hl : loadOk s (zext16 s.block.irqVector) = true) :
    fetchBody s = .next (afterLoad (zext16 s.block.irqVector) (afterEntry s)) := by
  obtain ⟨hc, hb, -⟩ := takeInterrupt_ok ha
  have hpc : pcAddress (afterEntry s).block = zext16 s.block.irqVector := by rw [pcAddress, hb]
  simp only [fetchBody, hp, if_true, hc, andThen_next, hpc]
  exact loadBus_ok hl

/-- A tick that comes to its event hook: its body goes on, and the deadline is reached then. -/
theorem body_of_reachesEventHook {i : Instr} {s : State} (h : reachesEventHook i s = true) :
    s.running = true ∧ ∃ m, bodyOf i (s.onBlock (beginTick i.code)) = .next m ∧ eventDue m.block = true := by
  simp only [reachesEventHook, Bool.and_eq_true] at h
  obtain ⟨hr, h⟩ := h
  refine ⟨hr, ?_⟩
  suffices key : ∃ m, bodyOf i (s.onBlock (beginTick i.code)) = .next m ∧
      (i ≠ .execute → deadlineReached s = true) ∧ (i = .execute → eventDue m.block = true) by
    obtain ⟨m, h1, h2, h3⟩ := key
    refine ⟨m, h1, ?_⟩
    by_cases hi : i = .execute
    · exact h3 hi
    · rw [body_due hi h1, h2 hi]
  cases i with
  | fetch =>
    by_cases hp : s.block.irqPending = true
    · simp only [hp, if_true, Bool.and_eq_true] at h
      exact ⟨_, fetchBody_ok_pending hp h.1.1 h.1.2, fun _ => h.2, fun he => by cases he⟩
    · simp only [Bool.not_eq_true] at hp
      simp only [hp, Bool.false_eq_true, if_false, Bool.and_eq_true] at h
      refine ⟨afterLoad s.block.pc (s.onBlock (beginTick 0)), ?_, fun _ => h.2, fun he => by cases he⟩
      show fetchBody (s.onBlock (beginTick 0)) = _
      simp only [fetchBody, onBlock_block, beginTick_irqPending, hp, Bool.false_eq_true, if_false, andThen_next]
      exact loadBus_ok h.1
  | execute =>
    dsimp only at h
    split at h
    · next r ws rest hr ha =>
      rw [Bool.and_eq_true] at h
      refine ⟨(s.onBlock (beginTick 2)).record (.exec r) |>.onBlock (applyWrites ws) |> fun t => { t with answers := rest },
        ?_, fun he => absurd rfl he, fun _ => h.2⟩
      have hc : executeBody (s.onBlock (beginTick 2)) = callOut (.handler r) (.exec r) (s.onBlock (beginTick 2)) := by
        simp only [executeBody, onBlock_block, beginTick_ir, hr]
      show executeBody (s.onBlock (beginTick 2)) = _
      rw [hc, callOut]
      simp only [onBlock_answers, ha]
      exact checkedWrites_ok (who := .handler r) h.1 _
    · cases h
  | memoryLoad =>
    rw [Bool.and_eq_true] at h
    exact ⟨_, loadBus_ok (addr := s.block.index) h.1, fun _ => h.2, fun he => by cases he⟩
  | memoryStore =>
    rw [Bool.and_eq_true] at h
    exact ⟨_, storeByte_ok (addr := s.block.index) s.block.bus h.1, fun _ => h.2, fun he => by cases he⟩
  | readPc =>
    rw [Bool.and_eq_true] at h
    have hl : loadBus (pcAddress (s.onBlock (beginTick 6)).block) (s.onBlock (beginTick 6)) = _ :=
      loadBus_ok (addr := s.block.pc) h.1
    refine ⟨forceState 9 ((afterLoad s.block.pc (s.onBlock (beginTick 6))).onBlock fun b => { b with pc := b.pc + 1 }),
      ?_, fun _ => h.2, fun he => by cases he⟩
    show readPcBody (s.onBlock (beginTick 6)) = _
    rw [readPcBody, hl, andThen_next]
  | decode => exact ⟨_, rfl, fun _ => h, fun he => by cases he⟩
  | slot3 => exact ⟨_, rfl, fun _ => h, fun he => by cases he⟩
  | memoryMoveIndexLoad => exact ⟨_, rfl, fun _ => h, fun he => by cases he⟩
  | memoryMoveIndexStore => exact ⟨_, rfl, fun _ => h, fun he => by cases he⟩
  | readPcStall => exact ⟨_, rfl, fun _ => h, fun he => by cases he⟩
  | stall => exact ⟨_, rfl, fun _ => h, fun he => by cases he⟩
  | dispatch op => exact ⟨_, rfl, fun _ => h, fun he => by cases he⟩
  | illegalState11 => cases h
  | illegalState12 => cases h
  | illegalState13 => cases h
  | illegalState14 => cases h
  | illegalState15 => cases h

/-- A tick that comes to its event hook is the call of that hook, on the trace and the answers step 3 left (R116). -/
theorem exec_of_reachesEventHook {i : Instr} {s : State} (h : reachesEventHook i s = true) :
    ∃ m, exec i s = callOut .processEvents .processEvents m ∧ m.trace = s.trace ++ portCalls i s ∧
      m.answers = hookAnswers i s := by
  obtain ⟨hr, m, hb, hd⟩ := body_of_reachesEventHook h
  refine ⟨m, ?_, body_portCalls hb⟩
  rw [exec_eq_tick, tick_of_body hr hb, eventCheck, if_pos hd]

/-- Every instruction that goes on: it was running, its body went on from the counted and auto-advanced state, and the event
check followed (R110). -/
theorem exec_cases {i : Instr} {s t : State} (h : exec i s = .next t) :
    s.running = true ∧ ∃ m, bodyOf i (s.onBlock (beginTick i.code)) = .next m ∧ t = afterCheck m ∧
      AfterEvent (eventDue m.block) m.block t.block ∧ t.trace = m.trace ++ eventTrace (eventDue m.block) ∧
      t.mem = m.mem ∧ SameSession s t := by
  rw [exec_eq_tick] at h
  obtain ⟨hr, m, h1, h2, h3⟩ := tick_cases h
  obtain ⟨h4, h5, h6, h7⟩ := afterCheck_leaves h3
  subst h2
  exact ⟨hr, m, h1, rfl, h4, h5, h6, (body_sameSession h1).trans h7⟩

end Sys2Proof.Machine
end

