-- ==== Sys2Proof/Laws/PerInstr.lean ====
section
/-! SUPPORT. A law of every instruction as syntax, one lemma per constructor: its word fits its format's width, it stands at a
code the state register decodes, and it is well-formed exactly where that code is a defined one (30_encoding.md R90, R91, R94,
R96). -/

namespace Sys2Proof.Laws.CodeLaw

/-- The law: the word fits the format (R90, R96), the code is decoded back for a micro-state (R91), and the well-formed
instructions are those at the codes 0 to 10 (R94). -/
def Statement (i : Instr) : Prop :=
  encode i < (match i.format with | .state4 => 16 | .opByte8 => 256) ∧
  (i.format = .state4 → decodeState i.code = i) ∧
  (i.wellFormed = true ↔ i.code.toNat ≤ 10)

theorem fetch : Statement .fetch := by unfold Statement; decide
theorem decode : Statement .decode := by unfold Statement; decide
theorem execute : Statement .execute := by unfold Statement; decide
theorem slot3 : Statement .slot3 := by unfold Statement; decide
theorem memoryLoad : Statement .memoryLoad := by unfold Statement; decide
theorem memoryStore : Statement .memoryStore := by unfold Statement; decide
theorem readPc : Statement .readPc := by unfold Statement; decide
theorem memoryMoveIndexLoad : Statement .memoryMoveIndexLoad := by unfold Statement; decide
theorem memoryMoveIndexStore : Statement .memoryMoveIndexStore := by unfold Statement; decide
theorem readPcStall : Statement .readPcStall := by unfold Statement; decide
theorem stall : Statement .stall := by unfold Statement; decide
theorem illegalState11 : Statement .illegalState11 := by unfold Statement; decide
theorem illegalState12 : Statement .illegalState12 := by unfold Statement; decide
theorem illegalState13 : Statement .illegalState13 := by unfold Statement; decide
theorem illegalState14 : Statement .illegalState14 := by unfold Statement; decide
theorem illegalState15 : Statement .illegalState15 := by unfold Statement; decide
theorem dispatch (op : Byte) : Statement (.dispatch op) :=
  ⟨op.isLt, fun h => (by cases h), fun _ => (by decide : (1 : StateCode).toNat ≤ 10), fun _ => rfl⟩

end Sys2Proof.Laws.CodeLaw
end

