-- ==== Sys2Proof/Laws/Registers.lean ====
section
/-! SUPPORT. The laws of the byte halves and of the hard-wired flags nibble (10_state.md R22, R24). -/

namespace Sys2Proof.Machine

/-- The bits of a pair made of two halves. -/
theorem pair_getLsbD (x y : Byte) (i : Nat) :
    (show Word from x ++ y).getLsbD i = if i < 8 then y.getLsbD i else x.getLsbD (i - 8) := by
  simpa using BitVec.getLsbD_append (x := x) (y := y) (i := i)

/-- The high half of a pair made of two halves. -/
@[simp] theorem hiByte_pair (x y : Byte) : hiByte (show Word from x ++ y) = x := by
  apply BitVec.eq_of_getLsbD_eq
  intro i hi
  rw [hiByte, BitVec.getLsbD_extractLsb', pair_getLsbD, if_neg (by omega)]
  simp [hi]

/-- The low half of a pair made of two halves. -/
@[simp] theorem loByte_pair (x y : Byte) : loByte (show Word from x ++ y) = y := by
  apply BitVec.eq_of_getLsbD_eq
  intro i hi
  rw [loByte, BitVec.getLsbD_extractLsb', pair_getLsbD, if_pos (by omega)]
  simp [hi]

@[simp] theorem hiByte_withHi (p : Word) (v : Byte) : hiByte (withHi p v) = v := hiByte_pair _ _
@[simp] theorem loByte_withHi (p : Word) (v : Byte) : loByte (withHi p v) = loByte p := loByte_pair _ _
@[simp] theorem hiByte_withLo (p : Word) (v : Byte) : hiByte (withLo p v) = hiByte p := hiByte_pair _ _
@[simp] theorem loByte_withLo (p : Word) (v : Byte) : loByte (withLo p v) = v := loByte_pair _ _
@[simp] theorem hiByte_af (b : Block) : hiByte b.af = b.a := hiByte_pair _ _
@[simp] theorem loByte_af (b : Block) : loByte b.af = b.f := loByte_pair _ _

/-- The bits of the flags byte (R23, R24). -/
theorem f_getLsbD (b : Block) (i : Nat) : b.f.getLsbD i = if i < 4 then false else b.flags.getLsbD (i - 4) := by
  have h : b.f.getLsbD i = _ := BitVec.getLsbD_append (x := b.flags) (y := 0#4) (i := i)
  rw [h]
  by_cases h4 : i < 4 <;> simp [h4]

/-- The bits of `AF` (R22, R24). -/
theorem af_getLsbD (b : Block) (i : Nat) :
    b.af.getLsbD i = if i < 4 then false else if i < 8 then b.flags.getLsbD (i - 4) else b.a.getLsbD (i - 8) := by
  rw [Block.af]
  have h := pair_getLsbD b.a b.f i
  rw [show (b.a ++ b.f : BitVec 16).getLsbD i = _ from h, f_getLsbD]
  by_cases h4 : i < 4
  · simp [h4, show i < 8 by omega]
  · simp [h4]

end Sys2Proof.Machine
end

