-- ==== Sys2Proof/Laws/Step.lean ====
section
/-! SUPPORT. What a step can be: the tick of the captured micro-state, or another operation of the host (R90, R190). -/

namespace Sys2Proof.Machine

@[simp] theorem afterNextCall_block (s : State) : (afterNextCall s).block = s.block := rfl
@[simp] theorem afterNextCall_initDone (s : State) : (afterNextCall s).initDone = s.initDone := rfl
@[simp] theorem afterNextCall_resetDone (s : State) : (afterNextCall s).resetDone = s.resetDone := rfl
@[simp] theorem afterNextCall_shutDown (s : State) : (afterNextCall s).shutDown = s.shutDown := rfl
@[simp] theorem afterNextCall_dispatch (s : State) : (afterNextCall s).dispatch = s.dispatch := rfl
@[simp] theorem afterNextCall_master (s : State) : (afterNextCall s).master = s.master := rfl
@[simp] theorem afterNextCall_slots (s : State) : (afterNextCall s).slots = s.slots := rfl
@[simp] theorem afterNextCall_mem (s : State) : (afterNextCall s).mem = s.mem := rfl
@[simp] theorem afterNextCall_ram (s : State) : (afterNextCall s).ram = s.ram := rfl
@[simp] theorem afterNextCall_trace (s : State) : (afterNextCall s).trace = s.trace := rfl
@[simp] theorem afterNextCall_hostCalls (s : State) : (afterNextCall s).hostCalls = s.hostCalls.tail := rfl
@[simp] theorem afterNextCall_answers (s : State) : (afterNextCall s).answers = s.answers := rfl
@[simp] theorem afterNextCall_loads (s : State) : (afterNextCall s).loads = s.loads := rfl
@[simp] theorem afterNextCall_stores (s : State) : (afterNextCall s).stores = s.stores := rfl
@[simp] theorem afterNextCall_draws (s : State) : (afterNextCall s).draws = s.draws := rfl

/-- Where the host queues nothing, it goes on ticking (R3). -/
theorem nextCall_nil {s : State} (h : s.hostCalls = []) : nextCall s = .tick ∧ afterNextCall s = s := by
  cases s
  cases h
  exact ⟨rfl, rfl⟩

/-- The call at the head of the host's queue is the next one. -/
theorem nextCall_cons {s : State} {c : HostCall} {rest : List HostCall} (h : s.hostCalls = c :: rest) :
    nextCall s = c ∧ afterNextCall s = { s with hostCalls := rest } := by
  simp only [nextCall, afterNextCall, h, List.tail_cons, and_self]

/-- The step of a Tick call (R90, R112, R114). -/
theorem step_tick {s : State} (h : nextCall s = .tick) : step s = exec (decodeState s.block.state) (afterNextCall s) := by
  simp only [step, h, fetchInstr]

/-- The step of another call (R190). -/
theorem step_op {s : State} {o : HostOp} (h : nextCall s = .op o) : step s = perform o (afterNextCall s) := by
  simp only [step, h]

/-- A step that goes on was a Tick or another operation of the host, and went on as that does. -/
theorem step_cases {s t : State} (h : step s = .next t) :
    (nextCall s = .tick ∧ exec (decodeState s.block.state) (afterNextCall s) = .next t) ∨
    ∃ o, nextCall s = .op o ∧ perform o (afterNextCall s) = .next t := by
  cases hc : nextCall s with
  | tick => exact .inl ⟨rfl, by rw [← step_tick hc, h]⟩
  | op o => exact .inr ⟨o, rfl, by rw [← step_op hc, h]⟩

end Sys2Proof.Machine
end

