-- ==== Sys2Proof/Tests/Slice0.lean ====
section
/-! SUPPORT. The model's own tests: ill-formed instructions refused, words decoded, the spec's vectors (95_test_vectors.md, cited
by id) on single steps, and for every obligation with hypotheses a state that meets them together. -/

namespace Sys2Proof.Tests

open Sys2Proof.Machine

/-! ### Helpers -/

/-- The handler of opcode `n`. -/
def handler (n : Nat) : HandlerRef := ⟨n⟩

/-- A component with both hooks. -/
def both (n : Nat) : Component := ⟨n, true, true⟩

/-- A running machine whose platform is plain RAM everywhere, its table the handlers 0 to 255 in order, with slots
`[P0, none, P2]` (the common assumptions of 95_test_vectors.md); `P2` has no hook at all. -/
def machine (b : Block) (answers : List CallAnswer) : State :=
  { block := b, initDone := true, resetDone := true, shutDown := false,
    dispatch := ⟨((List.range 256).map handler).toArray, by simp⟩,
    master := both 0, slots := [some (both 1), none, some ⟨2, false, false⟩], mem := [(0x1234, 0xAB), (0xFFFF, 0x77)],
    ram := [⟨0x0000, 0xFFFF⟩], trace := [], hostCalls := [], answers := answers, loads := [], stores := [], draws := 0 }

/-- The same machine with no plain RAM. -/
def device (b : Block) (loads : List LoadAnswer) (stores : List StoreAnswer) : State :=
  { machine b [] with ram := [], loads := loads, stores := stores }

/-- A block at a state code, its event deadline far off. -/
def blk (code : StateCode) : Block := { Block.creation with state := code, nextEvent := 100 }

/-- A machine at its event deadline, whatever its next tick. -/
def atDeadline (answers : List CallAnswer) : State := machine { blk 3 with cycles := 99 } answers

/-- The ticks that come to the event hook at the deadline with no handler or other hook before it. -/
def quietTicks : List Instr :=
  [.fetch, .decode, .slot3, .memoryLoad, .memoryStore, .readPc, .memoryMoveIndexLoad, .memoryMoveIndexStore, .readPcStall,
    .stall, .dispatch 0xFF]

/-- The block a result goes on with. -/
def blockOf (r : Result) : Option Block := (nextOf r).map fun s => s.block

/-- The port trace a result goes on with. -/
def traceOf (r : Result) : Option (List Event) := (nextOf r).map fun s => s.trace

/-- A result that goes on has a next state. -/
theorem next_of_completes {r : Result} (h : completes r = true) : ∃ t, r = .next t := by
  cases r with
  | next t => exact ⟨t, rfl⟩
  | fault _ => cases h
  | refused _ => cases h

/-! ### Well-formedness: each check refuses an ill-formed term (R94) -/

theorem test_wf_illegal11 : Instr.wellFormed .illegalState11 = false := by decide
theorem test_wf_illegal12 : Instr.wellFormed .illegalState12 = false := by decide
theorem test_wf_illegal13 : Instr.wellFormed .illegalState13 = false := by decide
theorem test_wf_illegal14 : Instr.wellFormed .illegalState14 = false := by decide
theorem test_wf_illegal15 : Instr.wellFormed .illegalState15 = false := by decide
theorem test_wf_dispatch : Instr.wellFormed (.dispatch 0xFF) = true := by decide

/-! ### Decoding: words written out from the tables of R91 and R96 -/

theorem test_decode_fetch : decodeWord .state4 0b0000 = .ok .fetch := by rfl
theorem test_decode_decode : decodeWord .state4 0b0001 = .ok .decode := by rfl
theorem test_decode_execute : decodeWord .state4 0b0010 = .ok .execute := by rfl
theorem test_decode_slot3 : decodeWord .state4 0b0011 = .ok .slot3 := by rfl
theorem test_decode_memoryLoad : decodeWord .state4 0b0100 = .ok .memoryLoad := by rfl
theorem test_decode_memoryStore : decodeWord .state4 0b0101 = .ok .memoryStore := by rfl
theorem test_decode_readPc : decodeWord .state4 0b0110 = .ok .readPc := by rfl
theorem test_decode_mmil : decodeWord .state4 0b0111 = .ok .memoryMoveIndexLoad := by rfl
theorem test_decode_mmis : decodeWord .state4 0b1000 = .ok .memoryMoveIndexStore := by rfl
theorem test_decode_readPcStall : decodeWord .state4 0b1001 = .ok .readPcStall := by rfl
theorem test_decode_stall : decodeWord .state4 0b1010 = .ok .stall := by rfl
theorem test_decode_illegal11 : decodeWord .state4 0b1011 = .ok .illegalState11 := by rfl
theorem test_decode_illegal12 : decodeWord .state4 0b1100 = .ok .illegalState12 := by rfl
theorem test_decode_illegal13 : decodeWord .state4 0b1101 = .ok .illegalState13 := by rfl
theorem test_decode_illegal14 : decodeWord .state4 0b1110 = .ok .illegalState14 := by rfl
theorem test_decode_illegal15 : decodeWord .state4 0b1111 = .ok .illegalState15 := by rfl
theorem test_decode_dispatch_first : decodeWord .opByte8 0b00000000 = .ok (.dispatch 0x00) := by rfl
theorem test_decode_dispatch_last : decodeWord .opByte8 0b11111111 = .ok (.dispatch 0xFF) := by rfl
theorem test_decode_wide_state : decodeWord .state4 0b10000 = .error .widerThanStateRegister := by rfl
theorem test_decode_wide_opcode : decodeWord .opByte8 0b100000000 = .error .widerThanOpcodeByte := by rfl
theorem test_decode_no_byte : decodeBytes .opByte8 [] = .error .noByte := by rfl
theorem test_table_word_state : decodeTableWord 8 0x05 = some .memoryStore := by decide
theorem test_table_word_opcode : decodeTableWord 8 0x3E = some (.dispatch 0x3E) := by decide
theorem test_table_word_none : decodeTableWord 4 0x3E = none := by decide

/-- Each word placed right after reset runs and completes; EXECUTE stops on the null `IR` (R134). -/
theorem test_placed_words :
    (∀ w ∈ [0, 1, 3, 4, 5, 6, 7, 8, 9, 10, 0x10, 0x3E, 0xFF],
      completes (step (State.reset.withFetchWord 8 w)) = true) ∧
    faultOf (step (State.reset.withFetchWord 8 2)) = some (.nullHandler 1 []) := by decide

/-! ### The spec's vectors, one step each -/

/-- F2: an interrupt pending with vector 40. -/
theorem test_F2 :
    blockOf (exec .fetch (machine { blk 0 with pc := 0x1234, irqPending := true, irqVector := 0x40 } [.returns []])) =
      some { blk 1 with pc := 0x0040, bus := 0x00, irqVector := 0x40, cycles := 1 } ∧
    traceOf (exec .fetch (machine { blk 0 with pc := 0x1234, irqPending := true, irqVector := 0x40 } [.returns []])) =
      some [.setIE false, .load 0x0040] := by decide

/-- F4: the last address, no increment. -/
theorem test_F4 : blockOf (exec .fetch (machine { blk 0 with pc := 0xFFFF } [])) =
    some { blk 1 with pc := 0xFFFF, bus := 0x77, cycles := 1 } := by decide

/-- D1: the handler of opcode 3E. -/
theorem test_D1 : blockOf (exec .decode (machine { blk 1 with bus := 0x3E } [])) =
    some { blk 2 with bus := 0x3E, ir := some (handler 0x3E), pc := 0x0001, cycles := 1 } := by decide

/-- D2: `pc` wraps. -/
theorem test_D2 : blockOf (exec .decode (machine { blk 1 with bus := 0x00, pc := 0xFFFF } [])) =
    some { blk 2 with bus := 0x00, ir := some (handler 0x00), pc := 0x0000, cycles := 1 } := by decide

/-- D1 as `DISPATCH[3E]` (R97). -/
theorem test_dispatch : blockOf (exec (.dispatch 0xFF) (machine (blk 1) [])) =
    some { blk 2 with ir := some (handler 0xFF), pc := 0x0001, cycles := 1 } := by decide

/-- T5: the event hook sees the handler's write of the deadline. -/
theorem test_T5 :
    traceOf (exec .execute
      (machine { blk 2 with cycles := 9, ir := some (handler 1) } [.returns [.nextEvent 5], .returns []])) =
      some [.exec (handler 1), .processEvents] := by decide

/-- E6: `AF <- 12FF` leaves 12F0. -/
theorem test_E6 :
    (blockOf (exec .execute (machine { blk 2 with ir := some (handler 1) } [.returns [.af 0x12FF]]))).map Block.af =
      some 0x12F0 := by decide

/-- T1: a tick below the deadline. T2: equality with the deadline calls the hook. -/
theorem test_T1 : blockOf (exec .slot3 (machine { blk 3 with cycles := 7 } [])) = some { blk 0 with cycles := 8 } ∧
    traceOf (exec .slot3 (machine { blk 3 with cycles := 7 } [])) = some [] ∧
    traceOf (exec .slot3 (atDeadline [.returns []])) = some [.processEvents] := by decide

/-- M1: the byte at `index`, one load. -/
theorem test_M1 :
    blockOf (exec .memoryLoad (machine { blk 4 with index := 0x1234 } [])) =
      some { blk 1 with index := 0x1234, bus := 0xAB, cycles := 1 } ∧
    traceOf (exec .memoryLoad (machine { blk 4 with index := 0x1234 } [])) = some [.load 0x1234] := by decide

/-- M3: `bus` at `index`; the next state is EXECUTE. -/
theorem test_M3 :
    (nextOf (exec .memoryStore (machine { blk 5 with index := 0xC000, bus := 0x99 } []))).map (fun t => t.mem) =
      some [(0x1234, 0xAB), (0xC000, 0x99), (0xFFFF, 0x77)] ∧
    blockOf (exec .memoryStore (machine { blk 5 with index := 0xC000, bus := 0x99 } [])) =
      some { blk 2 with index := 0xC000, bus := 0x99, cycles := 1 } := by decide

/-- M5: the byte at `pc`, `pc` wraps, READ_PC_STALL forced. -/
theorem test_M5 : blockOf (exec .readPc (machine { blk 6 with pc := 0xFFFF } [])) =
    some { blk 9 with pc := 0x0000, bus := 0x77, cycles := 1 } := by decide

/-- M6: MEMORY_LOAD forced. -/
theorem test_M6 : blockOf (exec .memoryMoveIndexLoad (machine { blk 7 with index := 0x2000 } [])) =
    some { blk 4 with index := 0x2000, cycles := 1 } := by decide

/-- M7: MEMORY_STORE forced, nothing stored yet. -/
theorem test_M7 : blockOf (exec .memoryMoveIndexStore (machine { blk 8 with index := 0xC000, bus := 0x99 } [])) =
    some { blk 5 with index := 0xC000, bus := 0x99, cycles := 1 } ∧
    traceOf (exec .memoryMoveIndexStore (machine { blk 8 with index := 0xC000, bus := 0x99 } [])) = some [] := by decide

/-- X1: READ_PC_STALL keeps `bus`. -/
theorem test_X1 : blockOf (exec .readPcStall (machine { blk 9 with bus := 0x5A } [])) =
    some { blk 2 with bus := 0x5A, cycles := 1 } := by decide

/-- X2: SLOT3 after STALL. -/
theorem test_X2 : blockOf (exec .stall (machine (blk 10) [])) = some { blk 3 with cycles := 1 } := by decide

/-- The block of vector R1 before Reset. -/
def beforeR1 : Block :=
  { a := 0x12, flags := 0xF, bc := 0x3456, de := 0x789A, hl := 0xBCDE, sp := 0xFFFE, pc := 0x0150, bus := 0x77,
    index := 0xC000, ir := some (handler 1), cycles := 1000, nextEvent := 2000, state := 5, halted := true,
    irqPending := false, irqVector := 0x48 }

/-- R1: Reset clears what its list names and nothing else. -/
theorem test_R1 : blockOf (perform .callReset (machine beforeR1 [.returns []])) =
    some { Block.creation with bus := 0x77, index := 0xC000, irqVector := 0x48 } := by decide

/-- R2: the reset hook's deadline stands. -/
theorem test_R2 : blockOf (perform .callReset (machine beforeR1 [.returns [.nextEvent 0x70]])) =
    some { Block.creation with bus := 0x77, index := 0xC000, irqVector := 0x48, nextEvent := 0x70 } := by decide

/-- L1: Initialize runs the present hooks in slot order. -/
theorem test_L1 :
    traceOf (perform .callInitialize { machine (blk 0) [.returns [], .returns [], .returns []] with
      initDone := false, slots := [some (both 1), none, some (both 2)] }) =
      some [.initMaster, .initSlot 0, .initSlot 2] := by decide

/-- L2: Shutdown, the same order. -/
theorem test_L2 :
    traceOf (perform .callShutdown { machine (blk 0) [.returns [], .returns [], .returns []] with
      slots := [some (both 1), none, some (both 2)] }) =
      some [.deinitMaster, .deinitSlot 0, .deinitSlot 2] := by decide

/-- L3, L5, L6: out of range, an empty slot, an absent hook. -/
theorem test_L3 : nextOf (perform (.hotplugAttach 3) (machine (blk 0) [])) = some (machine (blk 0) []) ∧
    nextOf (perform (.hotplugAttach 1) (machine (blk 0) [])) = some (machine (blk 0) []) ∧
    nextOf (perform (.hotplugDetach 2) (machine (blk 0) [])) = some (machine (blk 0) []) := ⟨rfl, rfl, rfl⟩

/-- L4: Tick before Initialize. -/
theorem test_L4 : refusalOf (step { machine (blk 0) [] with initDone := false }) = some .lifecycle := by decide

/-- I1, S3: a second RaiseIRQ overwrites the vector. -/
theorem test_S3 :
    blockOf (perform (.raiseIRQ 0x48) (machine { blk 0 with irqPending := true, irqVector := 0x40 } [])) =
      some { blk 0 with irqPending := true, irqVector := 0x48 } := by decide

/-- R250, R257: the state right after reset is what Reset leaves of a created and initialised machine. -/
theorem test_reset_is_reset :
    blockOf (perform .callReset { State.reset with resetDone := false, answers := [.returns []] }) =
      some State.reset.block := by decide

/-! ### Witnesses: states that meet the hypotheses of each obligation together -/

theorem witness_FetchLoadsAtPc : let s := machine { blk 0 with pc := 0xFFFF, cycles := 99 } [.returns []]
    s.running = true ∧ s.block.irqPending = false ∧ loadOk s s.block.pc = true ∧
    answersOk (eventCaller (deadlineReached s)) s.answers = true := by decide

theorem witness_FetchTakesPendingInterrupt :
    let s := fun a => machine { blk 0 with irqPending := true, irqVector := 0xFF, cycles := 99 } a
    (∀ a ∈ [[], [.returns []], [.returns [.raiseIRQ 0x48]]],
      (s a).running = true ∧ (s a).block.irqPending = true ∧ loadOk (s a) (zext16 (s a).block.irqVector) = true ∧
      answersOk (.setInterruptsEnabled :: eventCaller (deadlineReached (s a))) (s a).answers = true) := by decide

theorem witness_InterruptEntrySavesNothing : ∃ s t : State, s.block.irqPending = true ∧ exec .fetch s = .next t ∧
    deadlineReached s = false := by
  obtain ⟨t, h⟩ := next_of_completes
    (r := exec .fetch (machine { blk 0 with irqPending := true, irqVector := 0xFF } [.returns []])) (by decide)
  exact ⟨_, t, rfl, h, by decide⟩

theorem witness_DecodeSelectsHandler : let s := machine { blk 1 with pc := 0xFFFF, bus := 0xFF, cycles := 99 } [.returns []]
    s.running = true ∧ answersOk (eventCaller (deadlineReached s)) s.answers = true := by decide

theorem witness_DispatchSelectsEntry : let s := machine { blk 1 with bus := 0xFF, cycles := 99 } [.returns []]
    s.running = true ∧ answersOk (eventCaller (deadlineReached s)) s.answers = true ∧ s.block.bus = 0xFF := by decide

theorem witness_ExecuteAppliesHandlerWrites :
    let ws : List BlockWrite := [.state 10, .ir (some (handler 2)), .nextEvent 1, .af 0xFFFF, .raiseIRQ 0xFF]
    let s := machine { blk 2 with ir := some (handler 1) } [.returns ws, .returns [.halted true]]
    s.running = true ∧ s.block.ir = some (handler 1) ∧ s.answers = .returns ws :: [.returns [.halted true]] ∧
    ws.all handlerMay = true ∧
    answersOk (eventCaller (eventDue (applyWrites ws { s.block with cycles := s.block.cycles + 1, state := 3 })))
      [.returns [.halted true]] = true := by decide

theorem witness_ExecuteCallsHandlerOnItsView : let s := machine { blk 2 with ir := some (handler 1) } []
    s.running = true ∧ s.block.ir = some (handler 1) ∧ s.answers = [] := by decide

theorem witness_ExecuteNullHandlerFaults : let s := machine { blk 2 with cycles := 0xFFFFFFFF } []
    s.running = true ∧ s.block.ir = none := by decide

theorem witness_HandlerStateWriteWins : ∃ s t : State, s.block.ir = some (handler 1) ∧
    s.answers = .returns ([.state 4] ++ .state 0 :: [.bus 1]) :: [] ∧
    (∀ w ∈ ([.bus 1] : List BlockWrite), w.field ≠ .state) ∧ exec .execute s = .next t := by
  obtain ⟨t, h⟩ := next_of_completes
    (r := exec .execute (machine { blk 2 with ir := some (handler 1) } [.returns [.state 4, .state 0, .bus 1]])) (by decide)
  exact ⟨_, t, rfl, rfl, by decide, h⟩

/-- E3, X4 and their neighbours: codes 11, 12 and 15; the trace ends in `Exec(H)`. -/
theorem witness_HandlerIllegalStateFaults : ∀ c ∈ ([11, 12, 15] : List StateCode),
    let s := machine { blk 2 with ir := some (handler 1) } [.returns ([.pc 1] ++ .state c :: [])]
    s.running = true ∧ s.block.ir = some (handler 1) ∧ ([.pc 1] : List BlockWrite).all handlerMay = true ∧
    11 ≤ c.toNat ∧ faultOf (exec .execute s) = some (.illegalState c (some (.handler (handler 1))) [.exec (handler 1)]) := by decide

/-- E4, E8: one forbidden write of each kind; the trace ends in `Exec(H)`. -/
theorem witness_HandlerForbiddenWriteFaults :
    ∀ w ∈ ([.cycles 0, .irqPending false, .irqPending true, .irqVector 0, .ir none] : List BlockWrite),
    let s := machine { blk 2 with ir := some (handler 1), irqPending := true } [.returns ([.pc 1] ++ w :: [])]
    s.running = true ∧ s.block.ir = some (handler 1) ∧ ([.pc 1] : List BlockWrite).all handlerMay = true ∧
    faultOf (exec .execute s) = some (.forbiddenWrite w.field (.handler (handler 1)) [.exec (handler 1)]) := by decide

theorem witness_Slot3DoesNothing : let s := machine { blk 3 with cycles := 99 } [.returns []]
    s.running = true ∧ answersOk (eventCaller (deadlineReached s)) s.answers = true := by decide

theorem witness_MemoryLoadReadsIndex : let s := device { blk 4 with index := 0xFFFF } [.byte 1] []
    s.running = true ∧ loadOk s s.block.index = true ∧
    answersOk (eventCaller (deadlineReached s)) s.answers = true := by decide

theorem witness_MemoryStoreWritesIndex :
    ∀ s ∈ [machine { blk 5 with index := 0xFFFF } [], device { blk 5 with index := 0x0000 } [] [.taken]],
    s.running = true ∧ storeOk s s.block.index = true ∧ Memory.wf s.mem = true ∧
    answersOk (eventCaller (deadlineReached s)) s.answers = true := by decide

theorem witness_MemoryStoreWritesIndex_clauses :
    inRam (machine { blk 5 with index := 0xFFFF } []).ram 0xFFFF = true ∧
    inRam (device { blk 5 with index := 0x0000 } [] [.taken]).ram 0x0000 = false := by decide

theorem witness_ReadPcLoadsAndAdvances : let s := machine { blk 6 with pc := 0xFFFF } []
    s.running = true ∧ loadOk s s.block.pc = true ∧
    answersOk (eventCaller (deadlineReached s)) s.answers = true := by decide

theorem witness_MoveIndexRedirects : let s := machine { blk 7 with cycles := 99 } [.returns []]
    s.running = true ∧ answersOk (eventCaller (deadlineReached s)) s.answers = true := by decide

theorem witness_StallsDoNothing : let s := machine { blk 9 with cycles := 99 } [.returns []]
    s.running = true ∧ answersOk (eventCaller (deadlineReached s)) s.answers = true := by decide

theorem witness_IllegalCodesFault : (machine (blk 15) []).running = true := by decide

/-- Code 10, the last one, and EXECUTE with a handler that writes no state. -/
theorem witness_SuccessorOfEveryState : ∃ s t u v : State,
    (nextCall s = .tick ∧ legalCode s.block.state = true ∧ s.block.state ≠ 2 ∧ step s = .next t) ∧
    (nextCall u = .tick ∧ legalCode u.block.state = true ∧ u.block.state = 2 ∧ u.answers = .returns [.pc 1] :: [] ∧
      (∀ w ∈ ([.pc 1] : List BlockWrite), w.field ≠ .state) ∧ step u = .next v) := by
  obtain ⟨t, h⟩ := next_of_completes (r := step (machine (blk 10) [])) (by decide)
  obtain ⟨v, k⟩ := next_of_completes
    (r := step (machine { blk 2 with ir := some (handler 1) } [.returns [.pc 1]])) (by decide)
  exact ⟨_, t, _, v, ⟨rfl, by decide, by decide, h⟩, rfl, by decide, rfl, rfl, by decide, k⟩

theorem witness_CyclesCountTicks : ∃ s t : State, exec .slot3 s = .next t ∧ s.block.cycles = 0xFFFFFFFF := by
  obtain ⟨t, h⟩ := next_of_completes (r := exec .slot3 (machine { blk 3 with cycles := 0xFFFFFFFF } [])) (by decide)
  exact ⟨_, t, h, rfl⟩

/-- S2 over two ticks. -/
theorem witness_CyclesCountFromReset : ∃ s t : State, s.hostCalls = [] ∧ s.block.cycles = 0 ∧ steps 2 s = .next t := by
  obtain ⟨t, h⟩ := next_of_completes (r := steps 2 (machine (blk 0) [])) (by decide)
  exact ⟨_, t, rfl, rfl, h⟩

theorem witness_EventHookAtDeadline : ∃ s t u v : State, exec .slot3 s = .next t ∧ exec .slot3 u = .next v ∧
    deadlineReached s = true ∧ deadlineReached u = false := by
  obtain ⟨t, h⟩ := next_of_completes (r := exec .slot3 (machine { blk 3 with cycles := 99 } [])) (by decide)
  obtain ⟨v, k⟩ := next_of_completes (r := exec .slot3 (machine { blk 3 with cycles := 98 } [])) (by decide)
  exact ⟨_, t, _, v, h, k, by decide, by decide⟩

/-- EXECUTE at the deadline by the handler's own write (T5), and below it. -/
theorem witness_EventHookAtDeadline_execute : ∀ w ∈ ([.nextEvent 10, .nextEvent 11] : List BlockWrite), ∃ s t : State,
    exec .execute s = .next t ∧ s.block.ir = some (handler 1) ∧ s.answers = .returns [w] :: [.returns []] := by
  have key : ∀ w ∈ ([.nextEvent 10, .nextEvent 11] : List BlockWrite), completes (exec .execute
      (machine { blk 2 with cycles := 9, ir := some (handler 1) } [.returns [w], .returns []])) = true := by decide
  intro w hw
  obtain ⟨t, h⟩ := next_of_completes (key w hw)
  exact ⟨_, t, h, rfl, rfl⟩

/-- EXECUTE of a handler whose answer is not scripted. -/
theorem witness_EventHookAtDeadline_free : ∃ s t : State, exec .execute s = .next t ∧ s.block.ir = some (handler 1) ∧
    s.answers = [] := by
  let s := machine { blk 2 with ir := some (handler 1) } []
  let m := afterCall (.handler (handler 1)) (.exec (handler 1)) (s.onBlock (beginTick 2))
  have hc : callOut (.handler (handler 1)) (.exec (handler 1)) (s.onBlock (beginTick 2)) = .next m :=
    (callOut_ok (.exec (handler 1)) rfl).2
  have hb : executeBody (s.onBlock (beginTick 2)) = .next m := hc
  have ha : ∀ due : Bool, answersOk (eventCaller due) [] = true := by decide
  exact ⟨s, afterCheck m, (tick_of_body rfl hb).trans (eventCheck_ok (ha (eventDue m.block))).1, rfl, rfl⟩

/-- One write of the event hook of each kind that stands, in SLOT3 and after a handler in EXECUTE. -/
theorem witness_EventHookAtDeadline_hook : ∀ w ∈ ([.raiseIRQ 0xFF, .nextEvent 0, .halted true] : List BlockWrite),
    ∃ s t u v : State,
      exec .slot3 s = .next t ∧ deadlineReached s = true ∧ hookAnswers .slot3 s = .returns [w] :: [] ∧
      exec .execute u = .next v ∧ u.block.ir = some (handler 1) ∧ hookAnswers .execute u = .returns [w] :: [] := by
  have key : ∀ w ∈ ([.raiseIRQ 0xFF, .nextEvent 0, .halted true] : List BlockWrite),
      completes (exec .slot3 (machine { blk 3 with cycles := 99 } [.returns [w]])) = true ∧
      completes (exec .execute
        (machine { blk 2 with cycles := 99, ir := some (handler 1) } [.returns [], .returns [w]])) = true := by decide
  intro w hw
  obtain ⟨t, h⟩ := next_of_completes (key w hw).1
  obtain ⟨v, k⟩ := next_of_completes (key w hw).2
  exact ⟨_, t, _, v, h, rfl, rfl, k, rfl, rfl⟩

/-- T3; the deadline 1, the least one; and EXECUTE with a deadline its handler writes. -/
theorem witness_WrapDoesNotReachDeadline : ∀ n ∈ [1, 0xFFFFFFFF],
    (let s := machine { blk 3 with cycles := 0xFFFFFFFF, nextEvent := .ofNat 32 n } []
     s.running = true ∧ s.block.cycles = 0xFFFFFFFF ∧ s.block.nextEvent ≠ 0 ∧ completes (exec .slot3 s) = true) ∧
    (let s := machine { blk 2 with cycles := 0xFFFFFFFF, nextEvent := 0, ir := some (handler 1) } [.returns [.nextEvent (.ofNat 32 n)]]
     s.block.cycles = 0xFFFFFFFF ∧ s.answers = .returns [.nextEvent (.ofNat 32 n)] :: [] ∧
     (applyWrites [.nextEvent (.ofNat 32 n)] (handlerView s.block)).nextEvent ≠ 0 ∧ completes (exec .execute s) = true) := by decide

theorem witness_PortTraceOrder : ∃ s t : State, exec .fetch s = .next t ∧ s.block.irqPending = true := by
  obtain ⟨t, h⟩ := next_of_completes
    (r := exec .fetch (machine { blk 0 with irqPending := true, cycles := 99 } [.returns []])) (by decide)
  exact ⟨_, t, h, rfl⟩

/-- STALL meets the premises of all four clauses. -/
theorem witness_WhoWritesTheRegisters : ∃ s t : State, nextCall s = .tick ∧ s.block.state ≠ 2 ∧ step s = .next t ∧
    s.block.state ≠ 1 ∧ s.block.state ≠ 6 ∧ (s.block.state = 0 → s.block.irqPending = false) ∧ s.block.state ≠ 0 ∧
    s.block.state ≠ 4 := by
  obtain ⟨t, h⟩ := next_of_completes (r := step (machine (blk 10) [])) (by decide)
  exact ⟨_, t, rfl, by decide, h, by decide, by decide, by decide, by decide, by decide⟩

theorem witness_PendingClearedOnlyAtFetch : ∃ s t : State, step s = .next t ∧ s.block.irqPending = true ∧
    (nextCall s = .tick → s.block.state ≠ 0) := by
  obtain ⟨t, h⟩ := next_of_completes (r := step (machine { blk 1 with irqPending := true } [])) (by decide)
  exact ⟨_, t, h, rfl, fun _ => by decide⟩

theorem witness_ConfigurationStaysFixed : ∃ s t : State, step s = .next t ∧
    ∀ m slots, nextCall s ≠ .op (.attachComponents m slots) := by
  obtain ⟨t, h⟩ := next_of_completes
    (r := step { machine (blk 1) [] with hostCalls := [.op (.hotplugAttach 3)] }) (by decide)
  exact ⟨_, t, h, fun m l hc => by cases hc⟩

theorem witness_StepKeepsInvariant : ∃ s t : State, s.Inv ∧ step s = .next t := by
  obtain ⟨t, h⟩ := next_of_completes (r := step (machine { blk 5 with index := 0xFFFF } [])) (by decide)
  exact ⟨_, t, by decide, h⟩

theorem witness_TickOutsideRunningRefused :
    { machine (blk 0) [] with initDone := false }.initDone = false ∧
    { machine (blk 0) [] with resetDone := false }.resetDone = false ∧
    { machine (blk 0) [] with shutDown := true }.shutDown = true := by decide

theorem witness_HaltedDoesNotMatter : let s := machine { blk 0 with halted := true } []
    Instr.fetch ≠ .execute ∧ deadlineReached s = false ∧ s.block.irqPending = false := by decide

/-- A store of 99 at 00FF, where `pc` and the interrupt vector point too; a handler stands ready. -/
def storing (irqPending : Bool) : State :=
  machine { blk 5 with index := 0x00FF, pc := 0x00FF, bus := 0x99, ir := some (handler 1), irqPending := irqPending,
                       irqVector := 0xFF } [.returns [], .returns []]

/-- After the store. -/
def stored (irqPending : Bool) : State :=
  { storing irqPending with
    block := { (storing irqPending).block with state := 2, cycles := 1 }, trace := [.store 0x00FF 0x99],
    mem := [(0x00FF, 0x99), (0x1234, 0xAB), (0xFFFF, 0x77)] }

/-- One step later, the handler having run and written nothing. -/
def storedAndRun (irqPending : Bool) : State :=
  { stored irqPending with
    block := { (storing irqPending).block with state := 3, cycles := 2 },
    trace := [.store 0x00FF 0x99, .exec (handler 1)], answers := [.returns []] }

/-- The store, a step in between that stores nothing, and each of the loads. -/
theorem witness_StoreSeenByLaterReads : ∀ irqPending : Bool,
    (let s := storing irqPending
     let v := storedAndRun irqPending
     Memory.wf s.mem = true ∧ inRam s.ram s.block.index = true ∧ exec .memoryStore s = .next (stored irqPending) ∧
     steps 1 (stored irqPending) = .next v ∧ v.trace = (stored irqPending).trace ++ [.exec (handler 1)] ∧
     (∀ x, Event.store s.block.index x ∉ [Event.exec (handler 1)]) ∧ v.block.index = s.block.index ∧
     v.block.pc = s.block.index ∧ zext16 v.block.irqVector = s.block.index ∧ v.block.irqPending = irqPending) ∧
    completes (exec .memoryLoad (stored irqPending)) = true ∧
    ∀ i ∈ [Instr.memoryLoad, .readPc, .fetch], completes (exec i (storedAndRun irqPending)) = true := by
  intro irqPending
  refine ⟨⟨rfl, rfl, rfl, rfl, rfl, by simp, rfl, rfl, rfl, rfl⟩, ?_⟩
  cases irqPending <;> decide

/-- The handler, the disabling hook, each load and the store of a running machine. -/
theorem witness_HangLeavesNoNextState :
    (let s := machine { blk 2 with ir := some (handler 1) } [.hangs]
     s.running = true ∧ s.block.ir = some (handler 1) ∧ s.answers = .hangs :: []) ∧
    (let s := machine { blk 0 with irqPending := true } [.hangs]
     s.running = true ∧ s.block.irqPending = true ∧ s.answers = .hangs :: []) ∧
    (∀ irqPending : Bool,
      let s := device { blk 0 with index := 0xFFFF, pc := 0xFFFF, irqPending := irqPending, irqVector := 0xFF } [.hangs] []
      s.running = true ∧ s.loads = .hangs :: [] ∧ s.block.irqPending = irqPending ∧
      answersOk [.setInterruptsEnabled] s.answers = true ∧ inRam s.ram s.block.index = false ∧
      inRam s.ram s.block.pc = false ∧ inRam s.ram (zext16 s.block.irqVector) = false) ∧
    (let s := device { blk 5 with index := 0xFFFF } [] [.hangs]
     s.running = true ∧ inRam s.ram s.block.index = false ∧ s.stores = .hangs :: []) := by decide

/-- `processEvents` at ticks that come to it, EXECUTE and interrupt entry among them. -/
theorem witness_HangLeavesNoNextState_hook :
    (∀ i ∈ quietTicks, reachesEventHook i (atDeadline [.hangs]) = true ∧
      hookAnswers i (atDeadline [.hangs]) = .hangs :: []) ∧
    (let s := { atDeadline [.returns [], .hangs] with
      block := { (atDeadline []).block with irqPending := true, ir := some (handler 1) } }
     ∀ i ∈ [Instr.fetch, .execute], reachesEventHook i s = true ∧ hookAnswers i s = .hangs :: []) := by decide

/-- The reset and hotplug hooks; the first and the second hook of Initialize and of Shutdown. -/
theorem witness_HangLeavesNoNextState_lifecycle :
    (let s := machine (blk 0) [.hangs]
     s.shutDown = false ∧ s.answers = .hangs :: [] ∧ s.slots[0]? = some (some (both 1)) ∧ (both 1).hasInit = true ∧
     (both 1).hasDeinit = true ∧ s.initDone = true ∧
     shutdownCalls s = [] ++ (.deinitMaster, .componentDeinit (both 0)) :: [(.deinitSlot 0, .componentDeinit (both 1))] ∧
     initializeCalls s = [] ++ (.initMaster, .componentInit (both 0)) :: [(.initSlot 0, .componentInit (both 1))]) ∧
    (let s := machine (blk 0) [.returns [.raiseIRQ 1], .hangs]
     s.answers = [.returns [.raiseIRQ 1]] ++ .hangs :: [] ∧
     answersOk [.componentInit (both 0)] [.returns [.raiseIRQ 1]] = true ∧
     answersOk [.componentDeinit (both 0)] [.returns [.raiseIRQ 1]] = true ∧
     shutdownCalls s = [(.deinitMaster, .componentDeinit (both 0))] ++ (.deinitSlot 0, .componentDeinit (both 1)) :: [] ∧
     initializeCalls s = [(.initMaster, .componentInit (both 0))] ++ (.initSlot 0, .componentInit (both 1)) :: []) ∧
    { machine (blk 0) [] with initDone := false }.initDone = false := by decide

/-- X3 and X5, and the neighbouring codes 10 and 11: at every micro-state that comes to the hook, and in Reset. -/
theorem witness_EventHookBadWriteFaults :
    ∀ w ∈ ([.state 15, .state 11, .state 10, .state 0, .pc 0] : List BlockWrite),
    ([.halted true] : List BlockWrite).all eventHookMay = true ∧ w.field ≠ .nextEvent ∧ w.field ≠ .halted ∧
    w.isRaise = false ∧
    (∀ i ∈ quietTicks, reachesEventHook i (atDeadline [.returns ([.halted true] ++ w :: [])]) = true ∧
      hookAnswers i (atDeadline [.returns ([.halted true] ++ w :: [])]) = .returns ([.halted true] ++ w :: []) :: []) ∧
    (let s := { atDeadline [.returns [], .returns ([.halted true] ++ w :: [])] with
      block := { (atDeadline []).block with irqPending := true, ir := some (handler 1) } }
     ∀ i ∈ [Instr.fetch, .execute], reachesEventHook i s = true ∧
       hookAnswers i s = .returns ([.halted true] ++ w :: []) :: []) ∧
    (atDeadline [.returns ([.halted true] ++ w :: [])]).shutDown = false := by decide

/-- X3 and X5 themselves. -/
theorem test_X3 :
    faultOf (exec .slot3 (atDeadline [.returns [.state 15]])) =
      some (.illegalState 15 (some .processEvents) [.processEvents]) ∧
    faultOf (exec .slot3 (atDeadline [.returns [.state 0]])) =
      some (.forbiddenWrite .state .processEvents [.processEvents]) := by decide

theorem witness_DisableHookBadWriteFaults :
    ∀ w ∈ ([.state 15, .state 11, .state 10, .nextEvent 0, .halted true] : List BlockWrite),
    let s := machine { blk 0 with irqPending := true } [.returns ([.raiseIRQ 1] ++ w :: [])]
    s.running = true ∧ s.block.irqPending = true ∧ ([.raiseIRQ 1] : List BlockWrite).all BlockWrite.isRaise = true ∧
    w.isRaise = false ∧ completes (exec .fetch s) = false := by decide

/-- The two forms of the premise, both queues of the host. -/
theorem witness_StepRunsDecodedInstruction :
    decodeWord .state4 (machine { blk 1 with bus := 0xFF } []).block.state.toNat = .ok .decode ∧
    decodeWord .opByte8 (machine { blk 1 with bus := 0xFF } []).block.bus.toNat = .ok (.dispatch 0xFF) ∧
    (machine { blk 1 with bus := 0xFF } []).block.state = 1 ∧ (machine { blk 1 with bus := 0xFF } []).hostCalls = [] ∧
    { machine (blk 1) [] with hostCalls := [.tick] }.hostCalls = .tick :: [] := ⟨rfl, rfl, rfl, rfl, rfl⟩

theorem witness_StepPerformsHostOperation :
    { machine (blk 1) [] with hostCalls := [.op .callReset, .tick] }.hostCalls = .op .callReset :: [.tick] := rfl

/-- The boundary between the two formats, and the last byte. -/
theorem witness_PlacedWordRuns : decodeTableWord 8 15 = some .illegalState15 ∧
    decodeTableWord 8 16 = some (.dispatch 16) ∧ decodeTableWord 8 255 = some (.dispatch 255) := by decide

theorem witness_DecodeEncodeAgree : decodeWord .state4 15 = .ok .illegalState15 ∧
    decodeWord .opByte8 255 = .ok (.dispatch 255) := ⟨rfl, rfl⟩

theorem witness_RaiseIRQSetsLatch : (machine { blk 4 with irqPending := true } []).shutDown = false := by decide

/-- I2, before its FETCH. -/
theorem witness_LastRaiseWins :
    let s := { machine (blk 0) [] with hostCalls := [.op (.raiseIRQ 0x40), .op (.raiseIRQ 0x48), .tick] }
    s.shutDown = false ∧ s.hostCalls = .op (.raiseIRQ 0x40) :: .op (.raiseIRQ 0x48) :: [.tick] := ⟨rfl, rfl⟩

theorem witness_ResetClearsTheBlock : ∀ a ∈ [[], [.returns []], [.returns [.nextEvent 0xFFFFFFFF]], [.returns [.halted true]],
      [.returns [.raiseIRQ 0xFF]]],
    (machine beforeR1 a).shutDown = false ∧ answersOk [.resetHook] (machine beforeR1 a).answers = true := by decide

/-- S5. -/
theorem witness_ResetThenTick :
    let s := { machine beforeR1 [.returns [], .returns []] with hostCalls := [.op .callReset, .tick] }
    s.initDone = true ∧ s.shutDown = false ∧ s.block.irqPending = false ∧ s.hostCalls = .op .callReset :: [.tick] ∧
    ([.tick] : List HostCall).head? = some .tick ∧ s.answers = .returns [] :: [.returns []] ∧
    answersOk [.processEvents] [.returns []] = true ∧ loadOk s 0 = true := by decide

/-- I4. -/
theorem witness_PendingSurvivesReset : ∃ s t u : State, s.block.irqPending = true ∧ s.answers = .returns [] :: [.returns []] ∧
    perform .callReset s = .next t ∧ nextCall t = .tick ∧ step t = .next u := by
  obtain ⟨u, h⟩ := next_of_completes (r := step
    { machine { Block.creation with irqPending := true, irqVector := 0x40 } [.returns []] with trace := [.resetHook] })
    (by decide)
  exact ⟨machine { blk 5 with irqPending := true, irqVector := 0x40 } [.returns [], .returns []], _, u, rfl, rfl, rfl, rfl, h⟩

/-- One operation of each of the five kinds that goes on. -/
theorem witness_LifecycleTouchesNoRegister :
    (∀ op ∈ [.attachComponents (some (both 0)) [], .callShutdown, .hotplugAttach 0, .hotplugDetach 0],
      completes (perform op (machine (blk 0) [])) = true) ∧
    completes (perform .callInitialize { machine (blk 0) [] with initDone := false }) = true := by decide

theorem witness_InitializeRunsHooksInOrder :
    let s := { machine (blk 0) [.returns [.raiseIRQ 1], .returns []] with initDone := false }
    s.initDone = false ∧ s.shutDown = false ∧ answersOk ((initializeCalls s).map (·.2)) s.answers = true ∧
    s.answers = [.returns [.raiseIRQ 1], .returns []] ++ [] ∧ (initializeCalls s).length = 2 := by decide

theorem witness_ShutdownRunsHooksInOrder : let s := machine (blk 0) [.returns [.raiseIRQ 1], .returns []]
    s.initDone = true ∧ s.shutDown = false ∧ answersOk ((shutdownCalls s).map (·.2)) s.answers = true ∧
    s.answers = [.returns [.raiseIRQ 1], .returns []] ++ [] ∧ (shutdownCalls s).length = 2 := by decide

/-- Slot 0 has both hooks, slot 2 has none. -/
theorem witness_HotplugRunsOneSlot : let s := machine (blk 0) [.returns [.raiseIRQ 1]]
    s.shutDown = false ∧ s.slots[0]? = some (some (both 1)) ∧ (both 1).hasInit = true ∧ (both 1).hasDeinit = true ∧
    answersOk [.componentInit (both 1)] s.answers = true ∧ answersOk [.componentDeinit (both 1)] s.answers = true ∧
    s.slots[2]? = some (some ⟨2, false, false⟩) := by decide

/-- The hotplug hooks, and the first and the second hook of Initialize and of Shutdown. -/
theorem witness_ComponentHookBadWriteFaults :
    ∀ w ∈ ([.state 15, .state 11, .state 10, .nextEvent 0, .sp 0] : List BlockWrite), w.isRaise = false ∧
    ([.raiseIRQ 1] : List BlockWrite).all BlockWrite.isRaise = true ∧
    (let s := machine (blk 0) [.returns ([.raiseIRQ 1] ++ w :: [])]
     s.shutDown = false ∧ s.slots[0]? = some (some (both 1)) ∧ (both 1).hasInit = true ∧ (both 1).hasDeinit = true ∧
     s.answers = [] ++ .returns ([.raiseIRQ 1] ++ w :: []) :: [] ∧
     shutdownCalls s = [] ++ (.deinitMaster, .componentDeinit (both 0)) :: [(.deinitSlot 0, .componentDeinit (both 1))] ∧
     completes (perform (.hotplugAttach 0) s) = false ∧ completes (perform (.hotplugDetach 0) s) = false) ∧
    (let s := { machine (blk 0) [.returns [], .returns ([.raiseIRQ 1] ++ w :: [])] with initDone := false }
     s.shutDown = false ∧ s.initDone = false ∧ s.answers = [.returns []] ++ .returns ([.raiseIRQ 1] ++ w :: []) :: [] ∧
     answersOk [.componentInit (both 0)] [.returns []] = true ∧
     initializeCalls s = [(.initMaster, .componentInit (both 0))] ++ (.initSlot 0, .componentInit (both 1)) :: [] ∧
     completes (perform .callInitialize s) = false) := by decide

/-- The slot count itself is out of range, and slot 1 is empty. -/
theorem witness_HotplugOutOfRangeNoOp : let s := machine (blk 0) []
    s.shutDown = false ∧ s.slots.length ≤ 3 ∧ s.slots[1]? = some none := by decide

theorem witness_AttachReplacesComponents : (machine (blk 0) []).shutDown = false := by decide

theorem witness_AfterShutdownRefused : { machine (blk 0) [] with shutDown := true }.shutDown = true := by decide

theorem witness_LifecycleOrderEnforced : (machine (blk 0) []).initDone = true ∧
    { machine (blk 0) [] with initDone := false }.initDone = false ∧
    { machine (blk 0) [] with shutDown := true }.shutDown = true := by decide

/-- A good configuration. -/
def config : RawConfig :=
  { table := (List.range 256).map fun n => some (handler n), load := true, store := true, irqReset := true,
    setInterruptsEnabled := true, processEvents := true, master := some (both 0), slots := [none], ram := [], image := [] }

/-- A table too short or with a hole, a missing hook, no master. -/
theorem witness_BadConfigurationRefused :
    none ∈ { config with table := [none] }.table ∧ { config with table := [] }.table.length ≠ 256 ∧
    none ∉ config.table ∧ config.table.length = 256 ∧ { config with processEvents := false }.processEvents = false ∧
    { config with master := none }.master = none := by
  refine ⟨by decide, by decide, by simp [config], by simp [config], rfl, rfl⟩

theorem witness_CreationState : config.table = ((List.range 256).map handler).map some ∧
    ((List.range 256).map handler).length = 256 ∧ hooksPresent config = true ∧ config.master = some (both 0) := by
  refine ⟨?_, by simp, rfl, rfl⟩
  rw [List.map_map]
  rfl

end Sys2Proof.Tests
end

/-! ### Family 10_state: what may write the block, and what no step changes -/

namespace Sys2Proof.Machine

/-! #### A write that is not admitted stops the step (R42, R94) -/

/-- The fault of a write is ILLEGAL_STATE for an illegal state code and FORBIDDEN_WRITE otherwise (R42, R94). -/
theorem writeFault_stopsAtBadWrite (who : Writer) (w : BlockWrite) (trace : List Event) :
    StopsAtBadWrite (.fault (writeFault who w trace)) who w trace := by
  constructor
  · rintro c rfl hc
    have hill : ¬ c.toNat ≤ 10 := by omega
    simp [writeFault, legalCode, hill]
  · intro hlegal
    cases w with
    | state c => simp [writeFault, legalCode, hlegal c rfl, BlockWrite.field]
    | _ => rfl

/-- A call whose scripted answer makes a write that is not admitted, the ones before it being admitted, is the fault of that
write, the call itself on the trace (R42, R218). -/
theorem callOut_badWrite {who : Writer} {s : State} {pre post : List BlockWrite} {w : BlockWrite}
    {rest : List CallAnswer} (e : Event) (ha : s.answers = .returns (pre ++ w :: post) :: rest)
    (hpre : pre.all (admits who) = true) (hw : admits who w = false) :
    callOut who e s = .fault (writeFault who w (s.trace ++ [e])) := by
  simp only [callOut, ha]
  exact checkedWrites_fault post hpre hw _

/-- A fault of step 3 stops a running tick before its event check (R122). -/
theorem exec_fault_of_body {i : Instr} {s : State} {x : Fault} (hr : s.running = true)
    (hb : bodyOf i (s.onBlock (beginTick i.code)) = .fault x) : exec i s = .fault x := by
  rw [exec_eq_tick, tick, if_pos hr, hb, andThen_fault]

/-- EXECUTE stops at the first write of its handler that is not admitted (R42, R134). -/
theorem exec_execute_badWrite {s : State} {r : HandlerRef} {pre post : List BlockWrite} {w : BlockWrite}
    {rest : List CallAnswer} (hr : s.running = true) (hir : s.block.ir = some r)
    (ha : s.answers = .returns (pre ++ w :: post) :: rest) (hpre : pre.all handlerMay = true)
    (hw : handlerMay w = false) :
    exec .execute s = .fault (writeFault (.handler r) w (s.trace ++ [.exec r])) := by
  apply exec_fault_of_body hr
  show executeBody (s.onBlock (beginTick 2)) = _
  simp only [executeBody, onBlock_block, beginTick_ir, hir]
  exact callOut_badWrite (who := .handler r) (.exec r) ha hpre hw

/-- FETCH with an interrupt pending stops at the first write of the disabling hook that is no RaiseIRQ (R41, R131). -/
theorem exec_fetch_badWrite {s : State} {pre post : List BlockWrite} {w : BlockWrite} {rest : List CallAnswer}
    (hr : s.running = true) (hp : s.block.irqPending = true)
    (ha : s.answers = .returns (pre ++ w :: post) :: rest) (hpre : pre.all BlockWrite.isRaise = true)
    (hw : w.isRaise = false) :
    exec .fetch s = .fault (writeFault .setInterruptsEnabled w (s.trace ++ [.setIE false])) := by
  have hcall : takeInterrupt (s.onBlock (beginTick 0)) = _ :=
    callOut_badWrite (who := .setInterruptsEnabled) (.setIE false) ha hpre hw
  apply exec_fault_of_body hr
  show fetchBody (s.onBlock (beginTick 0)) = _
  simp only [fetchBody, onBlock_block, beginTick_irqPending, hp, if_true, hcall, andThen_fault, onBlock_trace]

/-- A tick that comes to its event hook stops at the hook's first write that is not admitted (R41, R116). -/
theorem exec_eventHook_badWrite {i : Instr} {s : State} {pre post : List BlockWrite} {w : BlockWrite}
    {rest : List CallAnswer} (h : reachesEventHook i s = true)
    (ha : hookAnswers i s = .returns (pre ++ w :: post) :: rest) (hpre : pre.all eventHookMay = true)
    (hw : eventHookMay w = false) :
    exec i s = .fault (writeFault .processEvents w (s.trace ++ portCalls i s ++ [.processEvents])) := by
  obtain ⟨m, hexec, htrace, hanswers⟩ := exec_of_reachesEventHook h
  rw [hexec, ← htrace]
  exact callOut_badWrite (who := .processEvents) .processEvents (hanswers.trans ha) hpre hw

/-- Reset stops at the first write of its hook that is not admitted (R41, R252). -/
theorem perform_callReset_badWrite {s : State} {pre post : List BlockWrite} {w : BlockWrite} {rest : List CallAnswer}
    (hs : s.shutDown = false) (ha : s.answers = .returns (pre ++ w :: post) :: rest)
    (hpre : pre.all eventHookMay = true) (hw : eventHookMay w = false) :
    perform .callReset s = .fault (writeFault .resetHook w (s.trace ++ [.resetHook])) := by
  have hcall : callOut .resetHook .resetHook (s.onBlock resetBlock) = _ :=
    callOut_badWrite (who := .resetHook) .resetHook ha hpre hw
  rw [perform, runReset, unlessShutDown_ok hs, hcall, andThen_fault, onBlock_trace]

/-- `isRaise` holds of the calls of RaiseIRQ and of no other write. -/
theorem isRaise_iff {w : BlockWrite} : w.isRaise = true ↔ ∃ v, w = .raiseIRQ v := by
  cases w <;> simp [BlockWrite.isRaise]

/-- Of the event hook no write is admitted but RaiseIRQ and those of the fields R41 names. -/
theorem eventHookMay_eq_false {w : BlockWrite} (hn : w.field ≠ .nextEvent) (hh : w.field ≠ .halted)
    (hi : ∀ v, w ≠ .raiseIRQ v) : eventHookMay w = false := by
  cases w with
  | nextEvent v => exact absurd rfl hn
  | halted v => exact absurd rfl hh
  | raiseIRQ v => exact absurd rfl (hi v)
  | _ => rfl

/-- Settles O11: none of the four writes is admitted of a handler, and each one's fault is FORBIDDEN_WRITE. -/
theorem handlerForbiddenWriteFaults : Obligations.HandlerForbiddenWriteFaults := by
  intro s r pre post rest w hr hir ha hpre hw
  obtain ⟨hbad, hforbidden⟩ : handlerMay w = false ∧
      ∀ trace, writeFault (.handler r) w trace = .forbiddenWrite w.field (.handler r) trace := by
    rcases hw with ⟨v, rfl⟩ | ⟨v, rfl⟩ | ⟨v, rfl⟩ | rfl <;> exact ⟨rfl, fun _ => rfl⟩
  rw [exec_execute_badWrite hr hir ha hpre hbad, hforbidden]

/-- Settles O35: `processEvents` and the reset hook are each a call that stops at the write. -/
theorem eventHookBadWriteFaults : Obligations.EventHookBadWriteFaults := by
  intro s pre post w rest hpre hn hh hi
  have hw : eventHookMay w = false := eventHookMay_eq_false hn hh hi
  constructor
  · intro i hreach ha
    rw [exec_eventHook_badWrite hreach ha hpre hw]
    exact writeFault_stopsAtBadWrite _ _ _
  · intro hs ha
    rw [perform_callReset_badWrite hs ha hpre hw]
    exact writeFault_stopsAtBadWrite _ _ _

/-- Settles O36: interrupt entry is a call that stops at the write. -/
theorem disableHookBadWriteFaults : Obligations.DisableHookBadWriteFaults := by
  intro s pre post w rest hr hp ha hpre hw
  have hraises : pre.all BlockWrite.isRaise = true := List.all_eq_true.2 fun x hx => isRaise_iff.2 (hpre x hx)
  have hbad : w.isRaise = false := by
    rw [Bool.eq_false_iff, ne_eq, isRaise_iff]
    exact fun ⟨v, hv⟩ => hw v hv
  rw [exec_fetch_badWrite hr hp ha hraises hbad]
  exact writeFault_stopsAtBadWrite _ _ _

/-! #### Which micro-states write which fields of the block (R25 to R29, R34) -/

/-- What step 3 of the micro-state at a code, EXECUTE apart, leaves of a block `b`: the only fields it writes, and for `pc`,
`IR`, `bus` and the pending flag the micro-states that write them. -/
structure MicroStateFrame (code : StateCode) (b m : Block) : Prop where
  written : m = { b with
    pc := m.pc, bus := m.bus, ir := m.ir, state := m.state, irqPending := m.irqPending, irqVector := m.irqVector }
  pc : code ≠ 1 → code ≠ 6 → (code = 0 → b.irqPending = false) → m.pc = b.pc
  ir : code ≠ 1 → m.ir = b.ir
  bus : code ≠ 0 → code ≠ 4 → code ≠ 6 → m.bus = b.bus
  irqPending : code ≠ 0 → m.irqPending = b.irqPending

/-- Every body but EXECUTE's keeps to the frame of its micro-state. -/
theorem BodyLeaves.frame {i : Instr} {b m : Block} (hi : i ≠ .execute) (h : BodyLeaves i b m) :
    MicroStateFrame i.code b m := by
  cases i with
  | fetch =>
    obtain ⟨hp, h⟩ | ⟨-, h⟩ := h
    · exact ⟨by rw [h], fun _ _ h0 => by simp [h0 rfl] at hp, fun _ => by rw [h], fun h0 => absurd rfl h0,
        fun h0 => absurd rfl h0⟩
    · exact ⟨by rw [h], fun _ _ _ => by rw [h], fun _ => by rw [h], fun h0 => absurd rfl h0, fun _ => by rw [h]⟩
  | decode | dispatch _ =>
    simp only [BodyLeaves] at h
    exact ⟨by rw [h], fun h1 => absurd rfl h1, fun h1 => absurd rfl h1, fun _ _ _ => by rw [h], fun _ => by rw [h]⟩
  | execute => exact absurd rfl hi
  | memoryLoad =>
    simp only [BodyLeaves] at h
    exact ⟨by rw [h], fun _ _ _ => by rw [h], fun _ => by rw [h], fun _ h4 => absurd rfl h4, fun _ => by rw [h]⟩
  | readPc =>
    simp only [BodyLeaves] at h
    exact ⟨by rw [h], fun _ h6 => absurd rfl h6, fun _ => by rw [h], fun _ _ h6 => absurd rfl h6, fun _ => by rw [h]⟩
  | memoryMoveIndexLoad | memoryMoveIndexStore | memoryStore | slot3 | readPcStall | stall =>
    simp only [BodyLeaves] at h
    subst h
    exact ⟨rfl, fun _ _ _ => rfl, fun _ => rfl, fun _ _ _ => rfl, fun _ => rfl⟩
  | illegalState11 | illegalState12 | illegalState13 | illegalState14 | illegalState15 => exact False.elim h

/-- A latch that was only ever set stays set (R210). -/
theorem pending_of_latch {b c : Block}
    (h : c.irqPending = true ∨ c.irqPending = b.irqPending ∧ c.irqVector = b.irqVector) (hp : b.irqPending = true) :
    c.irqPending = true :=
  h.elim id fun hsame => hsame.1.trans hp

/-- Only FETCH clears a pending interrupt in a tick: a handler's writes and the event hook's only set the latch (R34). -/
theorem exec_keeps_pending {i : Instr} {s t : State} (h : exec i s = .next t) (h0 : i.code ≠ 0)
    (hp : s.block.irqPending = true) : t.block.irqPending = true := by
  obtain ⟨-, m, hbody, -, ⟨-, -, hlatch⟩, -⟩ := exec_cases h
  have hleaves := body_leaves hbody
  refine pending_of_latch hlatch ?_
  by_cases hi : i = .execute
  · subst hi
    obtain ⟨ws, hws, hm⟩ := hleaves
    rw [hm]
    exact pending_of_latch (applyWrites_handler hws _).2.2 hp
  · exact ((hleaves.frame hi).irqPending h0).trans hp

/-- No operation of the host clears a pending interrupt, Reset among them (R34, R253). -/
theorem OpLeaves.keeps_pending {op : HostOp} {b c : Block} (h : OpLeaves op b c) (hp : b.irqPending = true) :
    c.irqPending = true := by
  cases op with
  | attachComponents _ _ => rw [show c = b from h, hp]
  | callInitialize | callShutdown | hotplugAttach _ | hotplugDetach _ => exact pending_of_latch (And.right h) hp
  | callReset => exact pending_of_latch (b := resetBlock b) (And.right h) hp
  | raiseIRQ v => rw [show c = raiseIRQ v b from h, raiseIRQ_irqPending]

/-- Settles O25, by the frame of the captured micro-state and what the event check may write. -/
theorem whoWritesTheRegisters : Obligations.WhoWritesTheRegisters := by
  intro s t hc h2 h
  rw [step_tick hc] at h
  obtain ⟨-, m, hbody, -, ⟨hafter, -⟩, -⟩ := exec_cases h
  have hcode := code_decodeState s.block.state
  have hexecute : decodeState s.block.state ≠ .execute := fun he => h2 (by rw [← hcode, he]; rfl)
  have hframe := (body_leaves hbody).frame hexecute
  rw [hcode] at hframe
  obtain ⟨hwritten, hpc, hir, hbus, -⟩ := hframe
  rw [hafter]
  refine ⟨?_, hpc, hir, hbus⟩
  rw [hwritten]
  exact ⟨rfl, rfl, rfl, rfl, rfl, rfl, rfl⟩

/-- Settles O26: a tick that does not capture FETCH, and every operation of the host, keeps the pending flag. -/
theorem pendingClearedOnlyAtFetch : Obligations.PendingClearedOnlyAtFetch := by
  intro s t h hp h0
  obtain ⟨hc, hexec⟩ | ⟨op, -, hop⟩ := step_cases h
  · exact exec_keeps_pending hexec (by rw [code_decodeState]; exact h0 hc) hp
  · obtain ⟨-, -, -, -, -, -, -, -, hleaves⟩ := perform_cases hop
    exact hleaves.keeps_pending hp

/-- Settles O27: a tick keeps the session, and of the host's operations only AttachComponents binds components. -/
theorem configurationStaysFixed : Obligations.ConfigurationStaysFixed := by
  intro s t h
  obtain ⟨-, hexec⟩ | ⟨op, hc, hop⟩ := step_cases h
  · obtain ⟨-, -, -, -, -, -, -, hsession⟩ := exec_cases hexec
    obtain ⟨-, -, -, hdispatch, hmaster, hslots, hram, -⟩ := hsession
    exact ⟨hdispatch, hram, fun _ => ⟨hmaster, hslots⟩⟩
  · obtain ⟨-, -, hdispatch, hram, -, -, hcomponents, -⟩ := perform_cases hop
    refine ⟨hdispatch, hram, fun hno => hcomponents ?_⟩
    rintro m slots rfl
    exact hno m slots hc

/-! #### The register pairs, their halves and the flags nibble (R22, R24) -/

/-- A pair is its two halves (R22). -/
theorem hiByte_append_loByte (v : Word) : (show Word from hiByte v ++ loByte v) = v := by
  apply BitVec.eq_of_getLsbD_eq
  intro i hi
  rw [pair_getLsbD]
  by_cases h8 : i < 8
  · simp [h8, loByte]
  · simp [h8, hiByte, show i - 8 < 8 by omega, show 8 + (i - 8) = i by omega]

/-- The bits of a byte and of a pair that the flags nibble leaves to be written (R24). -/
theorem writableMask_getLsbD :
    (∀ i < 8, (0xF0 : Byte).getLsbD i = decide (4 ≤ i)) ∧ ∀ i < 16, (0xFFF0 : Word).getLsbD i = decide (4 ≤ i) := by
  decide

/-- The bits of a byte and of a pair that are hard-wired (R24). -/
theorem hardwiredMask_getLsbD :
    (∀ i < 8, (0x0F : Byte).getLsbD i = decide (i < 4)) ∧ ∀ i < 16, (0x000F : Word).getLsbD i = decide (i < 4) := by
  decide

/-- `F[3:0]` reads as zero (R24). -/
theorem f_and_hardwired (b : Block) : b.f &&& 0x0F = 0 := by
  apply BitVec.eq_of_getLsbD_eq
  intro i hi
  rw [BitVec.getLsbD_and, hardwiredMask_getLsbD.1 i hi, f_getLsbD]
  by_cases h4 : i < 4 <;> simp [h4]

/-- `AF[3:0]` reads as zero (R22, R24). -/
theorem af_and_hardwired (b : Block) : b.af &&& 0x000F = 0 := by
  apply BitVec.eq_of_getLsbD_eq
  intro i hi
  rw [BitVec.getLsbD_and, hardwiredMask_getLsbD.2 i hi, af_getLsbD]
  by_cases h4 : i < 4 <;> simp [h4]

/-- A write to `F` keeps the top nibble of what is written (R24). -/
theorem f_setF (b : Block) (v : Byte) : (b.setF v).f = v &&& 0xF0 := by
  apply BitVec.eq_of_getLsbD_eq
  intro i hi
  rw [BitVec.getLsbD_and, writableMask_getLsbD.1 i hi, f_getLsbD]
  by_cases h4 : i < 4
  · simp [h4]
  · simp [h4, Block.setF, show i - 4 < 4 by omega, show 4 + (i - 4) = i by omega, show 4 ≤ i by omega]

/-- A write to `AF` keeps all but the low nibble of what is written (R24). -/
theorem af_setAF (b : Block) (v : Word) : (b.setAF v).af = v &&& 0xFFF0 := by
  apply BitVec.eq_of_getLsbD_eq
  intro i hi
  rw [BitVec.getLsbD_and, writableMask_getLsbD.2 i hi, af_getLsbD]
  by_cases h4 : i < 4
  · simp [h4]
  · by_cases h8 : i < 8
    · simp [h4, h8, Block.setAF, Block.setF, loByte, show i - 4 < 4 by omega, show 4 + (i - 4) = i by omega,
        show 4 ≤ i by omega]
    · simp [h4, h8, Block.setAF, hiByte, show i - 8 < 8 by omega, show 8 + (i - 8) = i by omega, show 4 ≤ i by omega]

/-- Settles O42, the nibble in `F` and in `AF` and the writes of each. -/
theorem flagsLowNibbleHardwired : Obligations.FlagsLowNibbleHardwired := fun b =>
  ⟨f_and_hardwired b, af_and_hardwired b, af_setAF b, fun v => ⟨f_setF b v, rfl⟩⟩

/-- Settles O43, by the halves of a pair written in one half. -/
theorem byteHalfWrites : Obligations.ByteHalfWrites := fun _ _ =>
  ⟨hiByte_af _, loByte_af _,
    hiByte_withHi _ _, loByte_withHi _ _, hiByte_withLo _ _, loByte_withLo _ _,
    hiByte_withHi _ _, loByte_withHi _ _, hiByte_withLo _ _, loByte_withLo _ _,
    hiByte_withHi _ _, loByte_withHi _ _, hiByte_withLo _ _, loByte_withLo _ _,
    fun w => ⟨rfl, rfl, rfl, hiByte_af _, (hiByte_append_loByte w).symm⟩⟩

/-- A write to `AF` stores its high byte in `A` and `AF[7:4]` in the flags (R22, R24). -/
theorem applyWrite_af (b : Block) (v : Word) :
    applyWrite b (.af v) = { b with a := v.extractLsb' 8 8, flags := v.extractLsb' 4 4 } := by
  have hflags : (loByte v).extractLsb' 4 4 = v.extractLsb' 4 4 := by
    apply BitVec.eq_of_getLsbD_eq
    intro i hi
    simp [loByte, hi]
  rw [applyWrite, Block.setAF, Block.setF, hflags, hiByte]

/-- No writer is admitted a write of the core's own fields (R40, R42). -/
theorem admits_core_fields (who : Writer) :
    (∀ n, admits who (.cycles n) = false) ∧ (∀ x, admits who (.irqPending x) = false) ∧
      ∀ v, admits who (.irqVector v) = false := by
  cases who <;> exact ⟨fun _ => rfl, fun _ => rfl, fun _ => rfl⟩

/-- A later write is made over the earlier ones (R10). -/
theorem applyWrites_concat (ws : List BlockWrite) (w : BlockWrite) (b : Block) :
    applyWrites (ws ++ [w]) b = applyWrite (applyWrites ws b) w := by
  simp [applyWrites]

/-- Settles O60: each write of the vocabulary by the model's own equation, with the writers' rules and the order. -/
theorem blockWritesAndFrames : Obligations.BlockWritesAndFrames := fun b =>
  ⟨fun _ => ⟨applyWrite_af b _, rfl, rfl, rfl, rfl, rfl, rfl⟩,
    fun _ => ⟨rfl, rfl, rfl, rfl, rfl, rfl, rfl, rfl, rfl, rfl⟩,
    fun _ => rfl, fun _ => rfl, fun _ => rfl, fun _ => rfl, admits_core_fields, applyWrites_nil b,
    fun ws w => applyWrites_concat ws w b⟩

end Sys2Proof.Machine

/-! ### Family 20_memory: what reads memory, what a store is seen by, and what never returns -/

namespace Sys2Proof.Machine

/-! #### A callback that never returns leaves no next state (R80, R203) -/

/-- A call whose scripted answer never comes is a hang of that callee, the call itself on the trace (R203). -/
theorem callOut_hangs {who : Writer} {s : State} {rest : List CallAnswer} (e : Event)
    (ha : s.answers = .hangs :: rest) : callOut who e s = .fault (.hang (.hook who) (s.trace ++ [e])) := by
  simp only [callOut, ha, record_trace]

/-- A load outside plain RAM whose answer never comes is a hang of the load (R80). -/
theorem loadBus_hangs {addr : Word} {s : State} {rest : List LoadAnswer} (hr : inRam s.ram addr = false)
    (hl : s.loads = .hangs :: rest) : loadBus addr s = .fault (.hang .memoryLoad (s.trace ++ [.load addr])) := by
  simp only [loadBus, record_ram, hr, Bool.false_eq_true, if_false, record_loads, hl, record_trace]

/-- A store outside plain RAM whose answer never comes is a hang of the store (R80). -/
theorem storeByte_hangs {addr : Word} {s : State} {rest : List StoreAnswer} (v : Byte)
    (hr : inRam s.ram addr = false) (hs : s.stores = .hangs :: rest) :
    storeByte addr v s = .fault (.hang .memoryStore (s.trace ++ [.store addr v])) := by
  simp only [storeByte, record_ram, hr, Bool.false_eq_true, if_false, record_stores, hs, record_trace]

/-- EXECUTE stops where its handler never returns (R134, R203). -/
theorem exec_execute_hangs {s : State} {r : HandlerRef} {rest : List CallAnswer} (hr : s.running = true)
    (hir : s.block.ir = some r) (ha : s.answers = .hangs :: rest) :
    exec .execute s = .fault (.hang (.hook (.handler r)) (s.trace ++ [.exec r])) := by
  apply exec_fault_of_body hr
  show executeBody (s.onBlock (beginTick 2)) = _
  simp only [executeBody, onBlock_block, beginTick_ir, hir]
  exact callOut_hangs (.exec r) ha

/-- FETCH with an interrupt pending stops where the disabling hook never returns (R131, R203). -/
theorem exec_fetch_hook_hangs {s : State} {rest : List CallAnswer} (hr : s.running = true)
    (hp : s.block.irqPending = true) (ha : s.answers = .hangs :: rest) :
    exec .fetch s = .fault (.hang (.hook .setInterruptsEnabled) (s.trace ++ [.setIE false])) := by
  have hcall : takeInterrupt (s.onBlock (beginTick 0)) = _ :=
    callOut_hangs (who := .setInterruptsEnabled) (.setIE false) ha
  apply exec_fault_of_body hr
  show fetchBody (s.onBlock (beginTick 0)) = _
  simp only [fetchBody, onBlock_block, beginTick_irqPending, hp, if_true, hcall, andThen_fault, onBlock_trace]

/-- FETCH stops where the load of its opcode never returns (R80, R130). -/
theorem exec_fetch_load_hangs {s : State} {rest : List LoadAnswer} (hr : s.running = true)
    (hl : s.loads = .hangs :: rest) (hp : s.block.irqPending = false) (hram : inRam s.ram s.block.pc = false) :
    exec .fetch s = .fault (.hang .memoryLoad (s.trace ++ [.load s.block.pc])) := by
  apply exec_fault_of_body hr
  show fetchBody (s.onBlock (beginTick 0)) = _
  simp only [fetchBody, onBlock_block, beginTick_irqPending, hp, Bool.false_eq_true, if_false, andThen_next]
  exact loadBus_hangs hram hl

/-- FETCH with an interrupt pending stops where the load at the vector never returns, after the disabling hook (R80, R131). -/
theorem exec_fetch_vector_load_hangs {s : State} {rest : List LoadAnswer} (hr : s.running = true)
    (hl : s.loads = .hangs :: rest) (hp : s.block.irqPending = true)
    (ha : answersOk [.setInterruptsEnabled] s.answers = true) (hram : inRam s.ram (zext16 s.block.irqVector) = false) :
    exec .fetch s =
      .fault (.hang .memoryLoad (s.trace ++ [.setIE false, .load (zext16 s.block.irqVector)])) := by
  obtain ⟨hentry, hblock, -⟩ := takeInterrupt_ok (s := s.onBlock (beginTick 0)) ha
  have hpc : pcAddress (afterEntry (s.onBlock (beginTick 0))).block = zext16 s.block.irqVector := by
    rw [pcAddress, hblock]
    rfl
  have hload := loadBus_hangs (s := afterEntry (s.onBlock (beginTick 0))) hram hl
  apply exec_fault_of_body hr
  show fetchBody (s.onBlock (beginTick 0)) = _
  simp only [fetchBody, onBlock_block, beginTick_irqPending, hp, if_true, hentry, andThen_next, hpc, hload,
    afterEntry_trace, onBlock_trace, List.append_assoc, List.cons_append, List.nil_append]

/-- MEMORY_LOAD stops where its load never returns (R80, R150). -/
theorem exec_memoryLoad_hangs {s : State} {rest : List LoadAnswer} (hr : s.running = true)
    (hl : s.loads = .hangs :: rest) (hram : inRam s.ram s.block.index = false) :
    exec .memoryLoad s = .fault (.hang .memoryLoad (s.trace ++ [.load s.block.index])) :=
  exec_fault_of_body hr (loadBus_hangs (s := s.onBlock (beginTick 4)) hram hl)

/-- READ_PC stops where its load never returns (R80, R152). -/
theorem exec_readPc_hangs {s : State} {rest : List LoadAnswer} (hr : s.running = true)
    (hl : s.loads = .hangs :: rest) (hram : inRam s.ram s.block.pc = false) :
    exec .readPc s = .fault (.hang .memoryLoad (s.trace ++ [.load s.block.pc])) := by
  have hload : loadBus (pcAddress (s.onBlock (beginTick 6)).block) (s.onBlock (beginTick 6)) = _ :=
    loadBus_hangs (addr := s.block.pc) hram hl
  apply exec_fault_of_body hr
  show readPcBody (s.onBlock (beginTick 6)) = _
  rw [readPcBody, hload, andThen_fault, onBlock_trace]

/-- MEMORY_STORE stops where its store never returns (R80, R151). -/
theorem exec_memoryStore_hangs {s : State} {rest : List StoreAnswer} (hr : s.running = true)
    (hram : inRam s.ram s.block.index = false) (hs : s.stores = .hangs :: rest) :
    exec .memoryStore s = .fault (.hang .memoryStore (s.trace ++ [.store s.block.index s.block.bus])) :=
  exec_fault_of_body hr (storeByte_hangs (s := s.onBlock (beginTick 5)) s.block.bus hram hs)

/-- A tick that comes to its event hook stops where the hook never returns (R116, R203). -/
theorem exec_eventHook_hangs {i : Instr} {s : State} {rest : List CallAnswer} (h : reachesEventHook i s = true)
    (ha : hookAnswers i s = .hangs :: rest) :
    exec i s = .fault (.hang (.hook .processEvents) (s.trace ++ portCalls i s ++ [.processEvents])) := by
  obtain ⟨m, hexec, htrace, hanswers⟩ := exec_of_reachesEventHook h
  rw [hexec, ← htrace]
  exact callOut_hangs .processEvents (hanswers.trans ha)

/-- Reset stops where its hook never returns (R203, R252). -/
theorem perform_callReset_hangs {s : State} {rest : List CallAnswer} (hs : s.shutDown = false)
    (ha : s.answers = .hangs :: rest) :
    perform .callReset s = .fault (.hang (.hook .resetHook) (s.trace ++ [.resetHook])) := by
  have hcall : callOut .resetHook .resetHook (s.onBlock resetBlock) = _ :=
    callOut_hangs (who := .resetHook) .resetHook ha
  rw [perform, runReset, unlessShutDown_ok hs, hcall, andThen_fault, onBlock_trace]

/-- HotplugAttach stops where the slot's `init` hook never returns (R184, R203). -/
theorem perform_hotplugAttach_hangs {s : State} {rest : List CallAnswer} {i : Nat} {c : Component}
    (hs : s.shutDown = false) (ha : s.answers = .hangs :: rest) (hc : s.slots[i]? = some (some c))
    (hinit : c.hasInit = true) :
    perform (.hotplugAttach i) s = .fault (.hang (.hook (.componentInit c)) (s.trace ++ [.initSlot i])) := by
  simp only [perform, hotplugAttach, unlessShutDown_ok hs, hc, callInit, hinit, if_true]
  exact callOut_hangs (.initSlot i) ha

/-- HotplugDetach stops where the slot's `deinit` hook never returns (R185, R203). -/
theorem perform_hotplugDetach_hangs {s : State} {rest : List CallAnswer} {i : Nat} {c : Component}
    (hs : s.shutDown = false) (ha : s.answers = .hangs :: rest) (hc : s.slots[i]? = some (some c))
    (hdeinit : c.hasDeinit = true) :
    perform (.hotplugDetach i) s = .fault (.hang (.hook (.componentDeinit c)) (s.trace ++ [.deinitSlot i])) := by
  simp only [perform, hotplugDetach, unlessShutDown_ok hs, hc, callDeinit, hdeinit, if_true]
  exact callOut_hangs (.deinitSlot i) ha

/-- A list of hook calls stops at the first one that never returns, those before it being answered (R203). -/
theorem makeCalls_hangs {done more : List (Event × Writer)} {e : Event} {who : Writer} {s : State}
    {before rest : List CallAnswer} (ha : s.answers = before ++ .hangs :: rest) (hl : before.length = done.length)
    (hok : answersOk (done.map (·.2)) before = true) :
    makeCalls (done ++ (e, who) :: more) s = .fault (.hang (.hook who) (s.trace ++ done.map (·.1) ++ [e])) :=
  makeCalls_stops ha hl hok fun m hanswers htrace => by rw [callOut_hangs e hanswers, htrace]

/-- Settles O34, callee by callee: each port or hook call that hangs stops the tick or the operation that makes it. -/
theorem hangLeavesNoNextState : Obligations.HangLeavesNoNextState := by
  intro s
  refine ⟨fun hr => ⟨fun _ _ hir ha => exec_execute_hangs hr hir ha, fun _ hp ha => exec_fetch_hook_hangs hr hp ha,
      fun _ hl => ⟨exec_fetch_load_hangs hr hl, exec_fetch_vector_load_hangs hr hl, exec_memoryLoad_hangs hr hl,
        exec_readPc_hangs hr hl⟩,
      fun _ hram hs => exec_memoryStore_hangs hr hram hs⟩,
    fun _ _ hreach ha => exec_eventHook_hangs hreach ha,
    fun hs => ⟨fun _ ha => ⟨perform_callReset_hangs hs ha, fun _ _ hc =>
      ⟨perform_hotplugAttach_hangs hs ha hc, perform_hotplugDetach_hangs hs ha hc⟩⟩, ?_⟩⟩
  intro done e who more before rest ha hl hok
  constructor
  · intro hi hcalls
    rw [perform, runInitialize_eq hi hs, hcalls, makeCalls_hangs ha hl hok, andThen_fault]
  · intro hi hcalls
    rw [perform, runShutdown_eq hi hs, hcalls, makeCalls_hangs ha hl hok, andThen_fault]

/-! #### What does not read memory (R78) -/

/-- The state with other RAM contents. -/
def State.withMem (mem : List Host.Cell) (s : State) : State := { s with mem := mem }

/-- The body answers the same whatever RAM holds, and carries the contents along. -/
def IgnoresMemory (body : State → Result) : Prop :=
  ∀ (mem : List Host.Cell) (s : State), body (s.withMem mem) = andThen (body s) fun t => .next (t.withMem mem)

/-- Checked writes are to the block alone. -/
theorem checkedWrites_ignoresMemory (who : Writer) (ws : List BlockWrite) : IgnoresMemory (checkedWrites who ws) := by
  intro mem s
  induction ws generalizing s with
  | nil => rfl
  | cons w ws ih =>
    by_cases hw : admits who w = true
    · simp only [checkedWrites, hw, if_true]
      exact ih (s.onBlock fun b => applyWrite b w)
    · simp only [checkedWrites, hw, Bool.false_eq_true, if_false, andThen_fault]
      rfl

/-- A handler or hook sees the block, not memory (R135). -/
theorem callOut_ignoresMemory (who : Writer) (e : Event) : IgnoresMemory (callOut who e) := by
  intro mem s
  have ha : (s.withMem mem).answers = s.answers := rfl
  rcases hs : s.answers with _ | ⟨_ | ws, rest⟩ <;> simp only [callOut, ha, hs]
  · rfl
  · rfl
  · exact checkedWrites_ignoresMemory who ws mem { s.record e with answers := rest }

/-- The event check looks at the block alone (R116). -/
theorem eventCheck_ignoresMemory : IgnoresMemory eventCheck := by
  intro mem s
  have hb : (s.withMem mem).block = s.block := rfl
  by_cases hd : eventDue s.block = true
  · simp only [eventCheck, hb, hd, if_true]
    exact callOut_ignoresMemory .processEvents .processEvents mem s
  · simp only [eventCheck, hb, hd, Bool.false_eq_true, if_false]
    rfl

/-- A tick reads memory only where its step 3 does (R110). -/
theorem tick_ignoresMemory (code : StateCode) {body : State → Result} (h : IgnoresMemory body) :
    IgnoresMemory (tick code body) := by
  intro mem s
  have hrun : (s.withMem mem).running = s.running := rfl
  by_cases hr : s.running = true
  · simp only [tick, hrun, hr, if_true]
    have hbody : body ((s.withMem mem).onBlock (beginTick code)) = _ := h mem (s.onBlock (beginTick code))
    rw [hbody, andThen_assoc, andThen_assoc]
    exact andThen_congr fun m _ => eventCheck_ignoresMemory mem m
  · simp only [tick, hrun, hr, Bool.false_eq_true, if_false]
    rfl

/-- Settles O32: step 3 of DECODE selects the handler by the byte in `bus`, and the tick around it reads no memory. -/
theorem decodeIgnoresMemory : Obligations.DecodeIgnoresMemory := by
  intro s mem
  exact tick_ignoresMemory 1 (body := fun s => dispatchBody (opcode s.block) s) (fun _ _ => rfl) mem s

/-! #### What a stored byte is seen by (R74, R78) -/

/-- Between the two states plain RAM changed only by stores: an address that no event since stores to reads as before, and
the contents stay in canonical form (R74). -/
def ChangedByStores (s t : State) : Prop :=
  ∃ evs, t.trace = s.trace ++ evs ∧ t.ram = s.ram ∧ (Memory.wf s.mem = true → Memory.wf t.mem = true ∧
    ∀ addr : Word, (∀ x, .store addr x ∉ evs) → Memory.read t.mem addr.toNat = Memory.read s.mem addr.toNat)

/-- Where the contents of RAM are the same. -/
theorem ChangedByStores.of_mem {s t : State} (htrace : ∃ evs, t.trace = s.trace ++ evs) (hram : t.ram = s.ram)
    (hmem : t.mem = s.mem) : ChangedByStores s t := by
  obtain ⟨evs, htrace⟩ := htrace
  exact ⟨evs, htrace, hram, fun hwf => by rw [hmem]; exact ⟨hwf, fun _ _ => rfl⟩⟩

/-- One stretch of a run after another. -/
theorem ChangedByStores.trans {s t u : State} (h : ChangedByStores s t) (h' : ChangedByStores t u) :
    ChangedByStores s u := by
  obtain ⟨evs, htrace, hram, hmem⟩ := h
  obtain ⟨evs', htrace', hram', hmem'⟩ := h'
  refine ⟨evs ++ evs', by rw [htrace', htrace, List.append_assoc], hram'.trans hram, fun hwf => ?_⟩
  obtain ⟨hwf, hread⟩ := hmem hwf
  obtain ⟨hwf', hread'⟩ := hmem' hwf
  exact ⟨hwf', fun addr hno => (hread' addr fun x hx => hno x (List.mem_append_right _ hx)).trans
    (hread addr fun x hx => hno x (List.mem_append_left _ hx))⟩

/-- A tick changes RAM only by the store of MEMORY_STORE, which is in its trace (R151). -/
theorem exec_changedByStores {i : Instr} {s t : State} (h : exec i s = .next t) : ChangedByStores s t := by
  obtain ⟨-, m, hbody, -, -, htrace, hmem, hsession⟩ := exec_cases h
  obtain ⟨-, -, -, -, -, -, hram, -⟩ := hsession
  rw [(body_portCalls hbody).1, List.append_assoc] at htrace
  obtain hsame | ⟨rfl, hwrite⟩ := body_mem hbody
  · exact .of_mem ⟨_, htrace⟩ hram (hmem.trans hsame)
  · have hwrite : t.mem = Memory.write s.mem s.block.index.toNat s.block.bus := hmem.trans hwrite
    refine ⟨_, htrace, hram, fun hwf => ?_⟩
    rw [hwrite]
    refine ⟨Memory.write_wf _ _ hwf, fun addr hno => ?_⟩
    have hne : addr ≠ s.block.index := by
      rintro rfl
      exact hno s.block.bus (List.mem_append_left _ (List.mem_singleton.2 rfl))
    rw [Memory.read_write hwf, if_neg fun he => hne (BitVec.eq_of_toNat_eq he)]

/-- A step changes RAM only by a store in its trace: the operations of the host change none of it. -/
theorem step_changedByStores {s t : State} (h : step s = .next t) : ChangedByStores s t := by
  obtain ⟨-, hexec⟩ | ⟨op, -, hop⟩ := step_cases h
  · exact exec_changedByStores (s := afterNextCall s) hexec
  · obtain ⟨-, hmem, -, hram, -, -, -, htrace, -⟩ := perform_cases hop
    exact .of_mem htrace hram hmem

/-- So do any number of steps. -/
theorem steps_changedByStores {n : Nat} {s t : State} (h : steps n s = .next t) : ChangedByStores s t := by
  induction n generalizing s with
  | zero =>
    cases h
    exact .of_mem ⟨[], (List.append_nil _).symm⟩ rfl rfl
  | succ n ih =>
    obtain ⟨m, hstep, hsteps⟩ := andThen_eq_next h
    exact (step_changedByStores hstep).trans (ih hsteps)

/-- The address is plain RAM and holds the byte (R74). -/
def HoldsByte (s : State) (addr : Word) (v : Byte) : Prop :=
  inRam s.ram addr = true ∧ Memory.read s.mem addr.toNat = v

/-- An address that no event since stores to holds its byte on. -/
theorem ChangedByStores.holdsByte {s t : State} {addr : Word} {v : Byte} {between : List Event}
    (h : ChangedByStores s t) (hwf : Memory.wf s.mem = true) (htrace : t.trace = s.trace ++ between)
    (hno : ∀ x, .store addr x ∉ between) (hv : HoldsByte s addr v) : HoldsByte t addr v := by
  obtain ⟨evs, htrace', hram, hmem⟩ := h
  obtain rfl : between = evs := List.append_cancel_left (htrace.symm.trans htrace')
  obtain ⟨hin, hread⟩ := hv
  exact ⟨by rw [hram, hin], by rw [(hmem hwf).2 addr hno, hread]⟩

/-- MEMORY_STORE at a RAM address leaves `bus` there, RAM in canonical form and `index` as it was (R151). -/
theorem exec_memoryStore_holdsByte {s t : State} (hwf : Memory.wf s.mem = true)
    (hin : inRam s.ram s.block.index = true) (h : exec .memoryStore s = .next t) :
    Memory.wf t.mem = true ∧ t.block.index = s.block.index ∧ HoldsByte t s.block.index s.block.bus := by
  obtain ⟨evs, -, hram, hmem⟩ := exec_changedByStores h
  obtain ⟨-, m, hbody, -, ⟨hafter, -⟩, -, hkept, -⟩ := exec_cases h
  have hbody : storeByte s.block.index s.block.bus (s.onBlock (beginTick 5)) = .next m := hbody
  obtain ⟨rfl, -⟩ := storeByte_cases hbody
  have hwrite : t.mem = Memory.write s.mem s.block.index.toNat s.block.bus := by
    rw [hkept, afterStore_mem, onBlock_ram, onBlock_mem, if_pos hin]
  exact ⟨(hmem hwf).1, by rw [hafter]; rfl, by rw [hram, hin],
    by rw [hwrite, Memory.read_write hwf, if_pos rfl]⟩

/-- A load of a RAM address gives the byte it holds (R74). -/
theorem afterLoad_bus {s : State} {addr : Word} {v : Byte} (h : HoldsByte s addr v) :
    (afterLoad addr s).block.bus = v := by
  obtain ⟨hin, hread⟩ := h
  rw [afterLoad_block]
  simp only [loadedByte, hin, if_true, hread]

/-- The byte step 3 of a tick leaves in `bus` stays there: the event hook does not write it (R41). -/
theorem exec_bus_of_body {i : Instr} {s u : State} {v : Byte} (h : exec i s = .next u)
    (hbody : ∀ m, bodyOf i (s.onBlock (beginTick i.code)) = .next m → m.block.bus = v) : u.block.bus = v := by
  obtain ⟨-, m, hm, -, ⟨hafter, -⟩, -⟩ := exec_cases h
  rw [hafter]
  exact hbody m hm

/-- MEMORY_LOAD gets the byte that the address in `index` holds (R150). -/
theorem exec_memoryLoad_bus {s u : State} {v : Byte} (hv : HoldsByte s s.block.index v)
    (h : exec .memoryLoad s = .next u) : u.block.bus = v := by
  refine exec_bus_of_body h fun m hm => ?_
  rw [(loadBus_cases hm).1]
  exact afterLoad_bus (s := s.onBlock (beginTick 4)) hv

/-- READ_PC gets the byte that the address in `pc` holds (R152). -/
theorem exec_readPc_bus {s u : State} {v : Byte} (hv : HoldsByte s s.block.pc v)
    (h : exec .readPc s = .next u) : u.block.bus = v := by
  refine exec_bus_of_body h fun m hm => ?_
  rw [(readPcBody_cases hm).1]
  exact afterLoad_bus (s := s.onBlock (beginTick 6)) hv

/-- FETCH with no interrupt pending gets the byte that the address in `pc` holds (R130). -/
theorem exec_fetch_bus {s u : State} {v : Byte} (hp : s.block.irqPending = false) (hv : HoldsByte s s.block.pc v)
    (h : exec .fetch s = .next u) : u.block.bus = v := by
  refine exec_bus_of_body h fun m hm => ?_
  rw [(fetchBody_cases_quiet (s := s.onBlock (beginTick 0)) hp hm).1]
  exact afterLoad_bus (s := s.onBlock (beginTick 0)) hv

/-- FETCH with an interrupt pending gets the byte that the address of the vector holds (R131). -/
theorem exec_fetch_vector_bus {s u : State} {v : Byte} (hp : s.block.irqPending = true)
    (hv : HoldsByte s (zext16 s.block.irqVector) v) (h : exec .fetch s = .next u) : u.block.bus = v := by
  refine exec_bus_of_body h fun m hm => ?_
  rw [(fetchBody_cases_pending (s := s.onBlock (beginTick 0)) hp hm).1]
  exact afterLoad_bus (s := afterEntry (s.onBlock (beginTick 0))) hv

/-- Settles O33: the stored byte is held until a store to its address, and each load gets the byte its address holds. -/
theorem storeSeenByLaterReads : Obligations.StoreSeenByLaterReads := by
  intro s t hwf hin hstore
  obtain ⟨hwf', hindex, hheld⟩ := exec_memoryStore_holdsByte hwf hin hstore
  refine ⟨fun u => exec_memoryLoad_bus (by rw [hindex]; exact hheld), fun n v between hsteps htrace hno => ?_⟩
  have hlater : HoldsByte v s.block.index s.block.bus :=
    (steps_changedByStores hsteps).holdsByte hwf' htrace hno hheld
  exact ⟨fun u hi => exec_memoryLoad_bus (by rw [hi]; exact hlater),
    fun u hpc => exec_readPc_bus (by rw [hpc]; exact hlater),
    fun u hpc hp => exec_fetch_bus hp (by rw [hpc]; exact hlater),
    fun u hvec hp => exec_fetch_vector_bus hp (by rw [hvec]; exact hlater)⟩

end Sys2Proof.Machine

/-! ### Family 30_encoding: decode and encode, the successor of every state code, and the invariant -/

namespace Sys2Proof

/-! #### Decode and encode agree (R91, R96) -/

/-- The code law holds of every instruction. -/
theorem codeLaw : ∀ i : Instr, Laws.CodeLaw.Statement i
  | .fetch => Laws.CodeLaw.fetch
  | .decode => Laws.CodeLaw.decode
  | .execute => Laws.CodeLaw.execute
  | .slot3 => Laws.CodeLaw.slot3
  | .memoryLoad => Laws.CodeLaw.memoryLoad
  | .memoryStore => Laws.CodeLaw.memoryStore
  | .readPc => Laws.CodeLaw.readPc
  | .memoryMoveIndexLoad => Laws.CodeLaw.memoryMoveIndexLoad
  | .memoryMoveIndexStore => Laws.CodeLaw.memoryMoveIndexStore
  | .readPcStall => Laws.CodeLaw.readPcStall
  | .stall => Laws.CodeLaw.stall
  | .illegalState11 => Laws.CodeLaw.illegalState11
  | .illegalState12 => Laws.CodeLaw.illegalState12
  | .illegalState13 => Laws.CodeLaw.illegalState13
  | .illegalState14 => Laws.CodeLaw.illegalState14
  | .illegalState15 => Laws.CodeLaw.illegalState15
  | .dispatch op => Laws.CodeLaw.dispatch op

/-- A micro-state's code is decoded back (R91). -/
theorem decodeState_code {i : Instr} (h : i.format = .state4) : decodeState i.code = i := by
  obtain ⟨-, hcode, -⟩ := codeLaw i
  exact hcode h

/-- Every state code stands for a row of the state format (R91). -/
@[simp] theorem format_decodeState (code : StateCode) : (decodeState code).format = .state4 := by
  revert code; decide

/-- A micro-state's word is its code (R91). -/
theorem encode_eq_code {i : Instr} (h : i.format = .state4) : encode i = i.code.toNat := by
  cases i with
  | dispatch op => cases h
  | _ => rfl

/-- The word of the micro-state at a code is that code (R91). -/
@[simp] theorem encode_decodeState (code : StateCode) : encode (decodeState code) = code.toNat := by
  rw [encode_eq_code (format_decodeState code), code_decodeState]

/-- Every instruction's word decodes to it in its format (R91, R96). -/
theorem decodeWord_encode (i : Instr) : decodeWord i.format (encode i) = .ok i := by
  cases hf : i.format with
  | state4 =>
    rw [encode_eq_code hf, decodeWord_state4 i.code.isLt, BitVec.ofNat_toNat, BitVec.setWidth_eq, decodeState_code hf]
  | opByte8 =>
    cases i with
    | dispatch op => exact (decodeWord_opByte8 op.isLt).trans (by rw [BitVec.ofNat_toNat, BitVec.setWidth_eq])
    | _ => cases hf

/-- A word that decodes in a format is the word of what it decodes to, in that format (R91, R96). -/
theorem encode_of_decodeWord {f : Format} {w : Nat} {i : Instr} (h : decodeWord f w = .ok i) :
    i.format = f ∧ encode i = w := by
  obtain ⟨rfl, hw, rfl⟩ | ⟨rfl, hw, rfl⟩ := decodeWord_ok h
  · exact ⟨format_decodeState _, by rw [encode_decodeState, BitVec.toNat_ofNat, Nat.mod_eq_of_lt hw]⟩
  · exact ⟨rfl, by rw [encode, BitVec.toNat_ofNat, Nat.mod_eq_of_lt hw]⟩

/-- The byte that holds an instruction's word holds all of it (R90, R96). -/
theorem encodeByte_toNat (i : Instr) : (encodeByte i).toNat = encode i := by
  have hfits : encode i < 256 := by
    obtain ⟨-, hw, -⟩ | ⟨-, hw, -⟩ := decodeWord_ok (decodeWord_encode i) <;> omega
  rw [encodeByte, BitVec.toNat_ofNat, Nat.mod_eq_of_lt hfits]

/-- Settles O40: the first byte of the list is the instruction's word, and words decode one to one. -/
theorem decodeEncodeAgree : Obligations.DecodeEncodeAgree := by
  refine ⟨fun i rest => ?_, fun f w i => encode_of_decodeWord⟩
  simp only [decodeBytes, encodeByte_toNat, decodeWord_encode]

/-- Settles O41: the words of R91 and R96 evaluate to their rows. -/
theorem spelledWordsDecode : Obligations.SpelledWordsDecode :=
  ⟨rfl, rfl, rfl, rfl, rfl, rfl, rfl⟩

end Sys2Proof

namespace Sys2Proof.Machine

/-! #### The state code a tick ends with (R92, R93, R95) -/

/-- The state code step 3 of an instruction forces over the auto-advance (R95): READ_PC and the two MOVE_INDEX states force
one; what an EXECUTE tick's handler writes is not said here. -/
def forcedCode : Instr → Option StateCode
  | .readPc => some 9
  | .memoryMoveIndexLoad => some 4
  | .memoryMoveIndexStore => some 5
  | _ => none

/-- Every body but EXECUTE's leaves the code it forces, or else the one it found (R95). -/
theorem BodyLeaves.state {i : Instr} {b m : Block} (hi : i ≠ .execute) (h : BodyLeaves i b m) :
    m.state = (forcedCode i).getD b.state := by
  cases i with
  | fetch => obtain ⟨-, h⟩ | ⟨-, h⟩ := h <;> (rw [h]; rfl)
  | execute => exact absurd rfl hi
  | illegalState11 | illegalState12 | illegalState13 | illegalState14 | illegalState15 => exact False.elim h
  | _ =>
    simp only [BodyLeaves] at h
    rw [h]
    rfl

/-- The event check writes no state code (R41). -/
theorem AfterEvent.state {due : Bool} {b c : Block} (h : AfterEvent due b c) : c.state = b.state := by
  rw [h.1]

/-- The event and reset hooks write no state code (R41). -/
theorem HookLeaves.state {b c : Block} (h : HookLeaves b c) : c.state = b.state := by
  rw [h.1]

/-- Component hooks write no state code (R187). -/
theorem LatchOnly.state {b c : Block} (h : LatchOnly b c) : c.state = b.state := by
  rw [h.1]

/-- A tick of any instruction but EXECUTE ends with the code its step 3 forces, or else with the auto-advanced one (R93). -/
theorem exec_state {i : Instr} {s t : State} (hi : i ≠ .execute) (h : exec i s = .next t) :
    t.block.state = (forcedCode i).getD (autoAdvance i.code) := by
  obtain ⟨-, m, hbody, -, hafter, -⟩ := exec_cases h
  rw [hafter.state, (body_leaves hbody).state hi]
  rfl

/-- Writes to fields other than `state` leave it. -/
theorem applyWrites_state {ws : List BlockWrite} (h : ∀ w ∈ ws, w.field ≠ .state) (b : Block) :
    (applyWrites ws b).state = b.state := by
  have one : ∀ {w : BlockWrite}, decide (w.field ≠ .state) = true → ∀ b, (applyWrite b w).state = b.state := by
    intro w hw b
    cases w with
    | state c => simp [BlockWrite.field] at hw
    | _ => rfl
  exact applyWrites_ind (P := fun b c => c.state = b.state) (fun _ => rfl) (fun h h' => h'.trans h) one
    (List.all_eq_true.2 fun w hw => decide_eq_true (h w hw)) b

/-- An EXECUTE tick whose handler writes no `state` ends with the auto-advanced code (R93). -/
theorem exec_execute_state {s t : State} {ws : List BlockWrite} {rest : List CallAnswer}
    (ha : s.answers = .returns ws :: rest) (hws : ∀ w ∈ ws, w.field ≠ .state) (h : exec .execute s = .next t) :
    t.block.state = 3 := by
  obtain ⟨-, m, hbody, -, hafter, -⟩ := exec_cases h
  obtain ⟨r, -, rfl, -⟩ := executeBody_cases hbody
  have hwrites : nextWrites (.handler r) (s.onBlock (beginTick 2)) = ws := by
    simp only [nextWrites, onBlock_answers, ha]
  calc t.block.state
      = (applyWrites (nextWrites (.handler r) (s.onBlock (beginTick 2))) (beginTick 2 s.block)).state := hafter.state
    _ = (beginTick 2 s.block).state := by rw [hwrites, applyWrites_state hws]
    _ = 3 := rfl

/-- EXECUTE stands at code 2 and at no other (R91). -/
theorem decodeState_eq_execute {code : StateCode} : decodeState code = .execute ↔ code = 2 := by
  revert code; decide

/-- The table of R93, entry by entry: the code the micro-state at a legal code forces, or else the auto-advanced one. -/
theorem successor_table (code : StateCode) (h : legalCode code = true) :
    (forcedCode (decodeState code)).getD (autoAdvance code) =
      ([1, 2, 3, 0, 1, 2, 9, 4, 5, 2, 3] : List StateCode).getD code.toNat 0 := by
  revert code; decide

/-- Settles O19: EXECUTE apart, by the forced code of the captured micro-state. -/
theorem successorOfEveryState : Obligations.SuccessorOfEveryState := by
  intro s t hc hlegal hexec h
  rw [step_tick hc] at h
  by_cases h2 : s.block.state = 2
  · obtain ⟨ws, rest, ha, hws⟩ := hexec h2
    rw [decodeState_eq_execute.2 h2] at h
    rw [exec_execute_state (s := afterNextCall s) ha hws h, h2]
    rfl
  · rw [exec_state (fun he => h2 (decodeState_eq_execute.1 he)) h, code_decodeState, successor_table _ hlegal]

/-! #### The opcode dispatch, and the instruction a step runs (R90, R96, R133) -/

/-- DECODE is the dispatch of the byte in `bus` (R133). -/
theorem exec_decode_eq_dispatch (s : State) : exec .decode s = exec (.dispatch s.block.bus) s := rfl

/-- Settles O5: the body of the dispatch calls no port, so only the event hook has to be answered. -/
theorem dispatchSelectsEntry : Obligations.DispatchSelectsEntry := by
  refine fun s op => ⟨fun hr ha => ?_, ?_⟩
  · obtain ⟨t, hexec, hleaves, hmem⟩ :=
      tick_completes (code := 1) (body := dispatchBody op) (calls := []) hr rfl ha (List.append_nil _).symm rfl
        (SameSession.refl s)
    exact ⟨t, hexec, hleaves, fun addr => by rw [hmem]; rfl⟩
  · rintro rfl
    exact exec_decode_eq_dispatch s

/-- The word in the state register decodes to the micro-state a tick captures (R90). -/
theorem decodeWord_stateRegister (b : Block) : decodeWord .state4 b.state.toNat = .ok (decodeState b.state) := by
  rw [decodeWord_state4 b.state.isLt, BitVec.ofNat_toNat, BitVec.setWidth_eq]

/-- The tick of the captured micro-state is the tick of the instruction the state register decodes to, and at DECODE that of
the instruction the byte in `bus` decodes to (R90, R96). -/
theorem exec_decodeState {s : State} {i : Instr}
    (h : decodeWord .state4 s.block.state.toNat = .ok i ∨
      s.block.state = 1 ∧ decodeWord .opByte8 s.block.bus.toNat = .ok i) :
    exec (decodeState s.block.state) s = exec i s := by
  obtain h | ⟨h1, h⟩ := h
  · rw [decodeWord_stateRegister] at h
    rw [Except.ok.inj h]
  · rw [decodeWord_opByte8 s.block.bus.isLt, BitVec.ofNat_toNat, BitVec.setWidth_eq] at h
    rw [h1, ← Except.ok.inj h]
    exact exec_decode_eq_dispatch s

/-- Settles O37: the step of a Tick call is the tick of the captured micro-state, on the queue without that call. -/
theorem stepRunsDecodedInstruction : Obligations.StepRunsDecodedInstruction := by
  refine fun s i hi => ⟨fun hq => ?_, fun rest hq => ?_⟩
  · obtain ⟨hc, hafter⟩ := nextCall_nil hq
    rw [step_tick hc, hafter, exec_decodeState hi]
  · obtain ⟨hc, hafter⟩ := nextCall_cons hq
    rw [step_tick hc, hafter]
    exact exec_decodeState (s := { s with hostCalls := rest }) hi

/-- A placed state code stands in the state register, no host call waiting (log 15). -/
theorem withFetchWord_state4 {s : State} {nbits w : Nat} (hw : w < 2 ^ nbits) (hf : tableFormat w = .state4) :
    s.withFetchWord nbits w = (readyToTick s).onBlock fun b => { b with state := BitVec.ofNat 4 w } := by
  simp only [State.withFetchWord, placeWord, Nat.mod_eq_of_lt hw, hf]

/-- A placed opcode stands in `bus`, at DECODE, no host call waiting (log 15). -/
theorem withFetchWord_opByte8 {s : State} {nbits w : Nat} (hw : w < 2 ^ nbits) (hf : tableFormat w = .opByte8) :
    s.withFetchWord nbits w = (readyToTick s).onBlock fun b => { b with state := 1, bus := BitVec.ofNat 8 w } := by
  simp only [State.withFetchWord, placeWord, Nat.mod_eq_of_lt hw, hf]

/-- Settles O39: the placed word stands where the step decodes it, in the format its value selects. -/
theorem placedWordRuns : Obligations.PlacedWordRuns := by
  intro s nbits w i h
  obtain ⟨hfits, -, hd⟩ := decodeTableWord_some h
  obtain ⟨hf, hw, -⟩ | ⟨hf, hw, -⟩ := decodeWord_ok hd
  · rw [withFetchWord_state4 hfits hf]
    refine (stepRunsDecodedInstruction _ i (.inl ?_)).1 rfl
    rw [onBlock_block, BitVec.toNat_ofNat, Nat.mod_eq_of_lt hw, ← hf, hd]
  · rw [withFetchWord_opByte8 hfits hf]
    refine (stepRunsDecodedInstruction _ i (.inr ⟨rfl, ?_⟩)).1 rfl
    rw [onBlock_block, BitVec.toNat_ofNat, Nat.mod_eq_of_lt hw, ← hf, hd]

/-! #### The invariant (R94, R74, R183) -/

/-- A forced code is a legal one (R95). -/
theorem legalCode_forcedCode (i : Instr) {code : StateCode} (h : legalCode code = true) :
    legalCode ((forcedCode i).getD code) = true := by
  cases i with
  | readPc | memoryMoveIndexLoad | memoryMoveIndexStore => rfl
  | _ => exact h

/-- Every tick that goes on ends at a legal code, whatever it captured: the auto-advance and the forced codes are legal, and so
is what a handler may write (R94, R172). -/
theorem exec_legalCode {i : Instr} {s t : State} (h : exec i s = .next t) : legalCode t.block.state = true := by
  by_cases hi : i = .execute
  · subst hi
    obtain ⟨-, m, hbody, -, hafter, -⟩ := exec_cases h
    obtain ⟨ws, hws, hm⟩ := body_leaves hbody
    obtain ⟨-, hlegal, -⟩ := applyWrites_handler hws (beginTick 2 s.block)
    rw [hafter.state, hm]
    exact hlegal (legalCode_autoAdvance 2)
  · rw [exec_state hi h]
    exact legalCode_forcedCode i (legalCode_autoAdvance i.code)

/-- Every operation of the host keeps the state code, or leaves FETCH, as Reset does (R188, R252). -/
theorem OpLeaves.state {op : HostOp} {b c : Block} (h : OpLeaves op b c) : c.state = b.state ∨ c.state = 0 := by
  cases op with
  | attachComponents _ _ => exact .inl (by rw [show c = b from h])
  | callInitialize | callShutdown | hotplugAttach _ | hotplugDetach _ => exact .inl (LatchOnly.state h)
  | callReset => exact .inr (HookLeaves.state (b := resetBlock b) h)
  | raiseIRQ v => exact .inl (by rw [show c = raiseIRQ v b from h]; rfl)

/-- A tick keeps the invariant. -/
theorem exec_inv {i : Instr} {s t : State} (h : exec i s = .next t) (hinv : s.Inv) : t.Inv := by
  obtain ⟨-, hwf, hlife⟩ := hinv
  obtain ⟨_, -, -, hmem⟩ := exec_changedByStores h
  obtain ⟨-, -, -, -, -, -, -, hsession⟩ := exec_cases h
  obtain ⟨hinit, -, hshut, -⟩ := hsession
  exact ⟨exec_legalCode h, (hmem hwf).1, by rw [hshut, hinit]; exact hlife⟩

/-- An operation of the host keeps the invariant. -/
theorem perform_inv {op : HostOp} {s t : State} (h : perform op s = .next t) (hinv : s.Inv) : t.Inv := by
  obtain ⟨hlegal, hwf, -⟩ := hinv
  obtain ⟨-, hmem, -, -, -, hlife, -, -, hleaves⟩ := perform_cases h
  refine ⟨?_, by rw [hmem]; exact hwf, hlife⟩
  obtain hkept | hfetch := hleaves.state
  · rw [hkept]; exact hlegal
  · rw [hfetch]; rfl

/-- Settles O28: ticks and operations of the host each keep the invariant, on the queue without the call. -/
theorem stepKeepsInvariant : Obligations.StepKeepsInvariant := by
  intro s t hinv h
  obtain ⟨-, hexec⟩ | ⟨op, -, hop⟩ := step_cases h
  · exact exec_inv (s := afterNextCall s) hexec hinv
  · exact perform_inv (s := afterNextCall s) hop hinv

/-- Settles O29: reset leaves FETCH, empty RAM, and a session that is not shut down (R250). -/
theorem resetStateHasInvariant : Obligations.ResetStateHasInvariant :=
  ⟨rfl, rfl, fun hshut => by cases hshut⟩

end Sys2Proof.Machine

/-! ### Family 40_tick: what every tick counts, which ports it calls, and when it calls the event hook -/

namespace Sys2Proof.Machine

/-! #### The tick frame outside the running phase (R110, R201) -/

/-- A tick outside `phase = RUNNING` is refused before anything else (R110). -/
theorem exec_refused {i : Instr} {s : State} (h : s.running = false) : exec i s = .refused .lifecycle := by
  rw [exec_eq_tick, tick, h]
  rfl

/-- Settles O30: each of the three marks alone is enough to leave the running phase. -/
theorem tickOutsideRunningRefused : Obligations.TickOutsideRunningRefused := by
  intro i s h
  apply exec_refused
  obtain h | h | h := h <;> simp [State.running, h]

/-! #### The cycle counter (R111, R119) -/

/-- Step 3 writes no cycle count, whatever the instruction and whatever its handler writes (R40, R111). -/
theorem body_cycles {i : Instr} {s m : State} (h : bodyOf i s = .next m) : m.block.cycles = s.block.cycles := by
  have hleaves := body_leaves h
  by_cases hi : i = .execute
  · subst hi
    obtain ⟨ws, hws, hm⟩ := hleaves
    rw [hm]
    exact (applyWrites_handler hws _).1
  · rw [(hleaves.frame hi).written]

/-- The event check writes no cycle count (R41). -/
theorem AfterEvent.cycles {due : Bool} {b c : Block} (h : AfterEvent due b c) : c.cycles = b.cycles := by
  rw [h.1]

/-- Every tick counts one cycle (R111). -/
theorem exec_cycles {i : Instr} {s t : State} (h : exec i s = .next t) : t.block.cycles = s.block.cycles + 1 := by
  obtain ⟨-, m, hbody, -, hafter, -⟩ := exec_cases h
  rw [hafter.cycles, body_cycles hbody, onBlock_block, beginTick_cycles]

/-- Settles O20: the counter's own addition is modulo 2^32. -/
theorem cyclesCountTicks : Obligations.CyclesCountTicks := by
  intro i s t h
  rw [exec_cycles h, BitVec.toNat_add]
  rfl

/-- Where the host queues nothing, a step is a tick and queues nothing (R3). -/
theorem step_tick_of_no_hostCalls {s t : State} (hq : s.hostCalls = []) (h : step s = .next t) :
    exec (fetchInstr s) s = .next t ∧ t.hostCalls = [] := by
  obtain ⟨hc, hafter⟩ := nextCall_nil hq
  rw [step_tick hc, hafter] at h
  obtain ⟨-, -, -, -, -, -, -, hsession⟩ := exec_cases h
  obtain ⟨-, -, -, -, -, -, -, hcalls⟩ := hsession
  exact ⟨h, hcalls.trans hq⟩

/-- Steps with no host operation queued count one cycle each, modulo 2^32 (R111, R119). -/
theorem steps_cycles {n : Nat} {s t : State} (hq : s.hostCalls = []) (h : steps n s = .next t) :
    t.block.cycles.toNat = (s.block.cycles.toNat + n) % 2 ^ 32 := by
  induction n generalizing s with
  | zero =>
    cases h
    exact (Nat.mod_eq_of_lt t.block.cycles.isLt).symm
  | succ n ih =>
    obtain ⟨m, hstep, hrest⟩ := andThen_eq_next h
    obtain ⟨htick, hq'⟩ := step_tick_of_no_hostCalls hq hstep
    have hone := cyclesCountTicks _ _ _ htick
    rw [ih hq' hrest, hone]
    omega

/-- Settles O22, by the count of any number of steps from the counter at 0. -/
theorem cyclesCountFromReset : Obligations.CyclesCountFromReset := by
  intro n s t hq h0 h
  have hzero : s.block.cycles.toNat = 0 := by rw [h0]; rfl
  rw [steps_cycles hq h, hzero, Nat.zero_add]

/-! #### The port events of a tick (R66, R120) -/

/-- The call that disables interrupts, at a FETCH that takes one (R131). -/
def disableCalls (i : Instr) (s : State) : List Event :=
  if i = .fetch ∧ s.block.irqPending = true then [.setIE false] else []

/-- The Memory Port call of the four memory micro-states (R66). -/
def memoryCalls (i : Instr) (s : State) : List Event :=
  match i with
  | .fetch => [.load (if s.block.irqPending then zext16 s.block.irqVector else s.block.pc)]
  | .memoryLoad => [.load s.block.index]
  | .memoryStore => [.store s.block.index s.block.bus]
  | .readPc => [.load s.block.pc]
  | _ => []

/-- The call of the latched handler at EXECUTE (R134). -/
def handlerCalls (i : Instr) (s : State) : List Event :=
  match i, s.block.ir with
  | .execute, some r => [.exec r]
  | _, _ => []

/-- The port calls of step 3 are these three, in this order (R120). -/
theorem portCalls_eq (i : Instr) (s : State) :
    portCalls i s = disableCalls i s ++ memoryCalls i s ++ handlerCalls i s := by
  cases i with
  | fetch => cases hp : s.block.irqPending <;> simp [portCalls, disableCalls, memoryCalls, handlerCalls, hp]
  | execute => cases hr : s.block.ir <;> simp [portCalls, disableCalls, memoryCalls, handlerCalls, hr]
  | _ => rfl

/-- A tick makes at most one load or store (R66). -/
theorem memoryCalls_cases (i : Instr) (s : State) :
    memoryCalls i s = [] ∨ (∃ a, memoryCalls i s = [.load a]) ∨ ∃ a v, memoryCalls i s = [.store a v] := by
  cases i with
  | fetch | memoryLoad | readPc => exact .inr (.inl ⟨_, rfl⟩)
  | memoryStore => exact .inr (.inr ⟨_, _, rfl⟩)
  | _ => exact .inl rfl

/-- The four memory micro-states call the Memory Port, and no other instruction does (R66). -/
theorem memoryCalls_ne_nil_iff (i : Instr) (s : State) :
    memoryCalls i s ≠ [] ↔ i = .fetch ∨ i = .memoryLoad ∨ i = .memoryStore ∨ i = .readPc := by
  cases i <;> simp [memoryCalls]

/-- A tick runs at most one handler (R134). -/
theorem handlerCalls_cases (i : Instr) (s : State) : handlerCalls i s = [] ∨ ∃ r, handlerCalls i s = [.exec r] := by
  unfold handlerCalls
  split
  · exact .inr ⟨_, rfl⟩
  · exact .inl rfl

/-- A tick that calls the Memory Port runs no handler (R120). -/
theorem handlerCalls_of_memoryCalls {i : Instr} {s : State} (h : memoryCalls i s ≠ []) : handlerCalls i s = [] := by
  obtain rfl | rfl | rfl | rfl := (memoryCalls_ne_nil_iff i s).1 h <;> rfl

/-- The event check calls the event hook at most once (R116). -/
theorem eventTrace_cases (due : Bool) : eventTrace due = [] ∨ eventTrace due = [.processEvents] := by
  cases due
  · exact .inl rfl
  · exact .inr rfl

/-- A tick that goes on adds to the trace the calls of step 3, then that of the event check where the deadline is reached in the
state `m` that step 3 leaves (R110, R120). -/
theorem exec_trace {i : Instr} {s t : State} (h : exec i s = .next t) :
    ∃ m, bodyOf i (s.onBlock (beginTick i.code)) = .next m ∧ t = afterCheck m ∧
      t.trace = s.trace ++ portCalls i s ++ eventTrace (eventDue m.block) := by
  obtain ⟨-, m, hbody, hafter, -, htrace, -⟩ := exec_cases h
  exact ⟨m, hbody, hafter, by rw [htrace, (body_portCalls hbody).1]⟩

/-- Settles O24: the calls of step 3 by kind, then the event check's. -/
theorem portTraceOrder : Obligations.PortTraceOrder := by
  intro i s t h
  obtain ⟨m, -, -, htrace⟩ := exec_trace h
  exact ⟨disableCalls i s, memoryCalls i s, handlerCalls i s, eventTrace (eventDue m.block),
    by rw [htrace, portCalls_eq]; simp only [List.append_assoc], rfl, memoryCalls_cases i s, handlerCalls_cases i s,
    eventTrace_cases _, memoryCalls_ne_nil_iff i s, handlerCalls_of_memoryCalls⟩

/-! #### What an EXECUTE tick's handler leaves (R115, R134, R135) -/

/-- A scripted answer's writes are the next ones made. -/
theorem nextWrites_scripted {who : Writer} {s : State} {ws : List BlockWrite} {rest : List CallAnswer}
    (ha : s.answers = .returns ws :: rest) : nextWrites who s = ws := by
  simp only [nextWrites, ha]

/-- Where no answer is scripted the free writes are the next ones made (log 3). -/
theorem nextWrites_free {who : Writer} {s : State} (ha : s.answers = []) : nextWrites who s = freeAnswer who s := by
  simp only [nextWrites, ha]

/-- Step 3 of EXECUTE makes the handler's writes to the block the handler sees (R134, R135). -/
theorem executeBody_block {s m : State} {r : HandlerRef} (hr : s.block.ir = some r)
    (h : bodyOf .execute (s.onBlock (beginTick 2)) = .next m) :
    m.block = applyWrites (nextWrites (.handler r) (s.onBlock (beginTick 2))) (handlerView s.block) := by
  obtain ⟨r', hr', rfl, -⟩ := executeBody_cases h
  have hr' : s.block.ir = some r' := hr'
  obtain rfl : r = r' := Option.some.inj (hr.symm.trans hr')
  rfl

/-- A write of `state` with no later one stands (R10, R115). -/
theorem applyWrites_last_state {post : List BlockWrite} (h : ∀ w ∈ post, w.field ≠ .state) (pre : List BlockWrite)
    (c : StateCode) (b : Block) : (applyWrites (pre ++ .state c :: post) b).state = c := by
  have hsplit : applyWrites (pre ++ .state c :: post) b = applyWrites post (applyWrite (applyWrites pre b) (.state c)) := by
    simp [applyWrites]
  rw [hsplit, applyWrites_state h]
  rfl

/-- Settles O9: the write is made over the auto-advance, and neither what the handler writes after it nor the event check writes
`state`. -/
theorem handlerStateWriteWins : Obligations.HandlerStateWriteWins := by
  intro s t r pre post c rest hr ha hpost h
  obtain ⟨-, m, hbody, -, hafter, -⟩ := exec_cases h
  rw [hafter.state, executeBody_block hr hbody, nextWrites_scripted (s := s.onBlock (beginTick 2)) ha,
    applyWrites_last_state hpost]

/-! #### The event hook and the deadline (R116, R117, R118) -/

/-- The comparison of the event check is of plain unsigned numbers (R116, R118). -/
theorem eventDue_iff (b : Block) : eventDue b = true ↔ b.nextEvent.toNat ≤ b.cycles.toNat := decide_eq_true_iff

/-- Outside EXECUTE step 3 leaves the deadline the tick began with (R116). -/
theorem body_eventDue_iff {i : Instr} {s m : State} (hi : i ≠ .execute)
    (h : bodyOf i (s.onBlock (beginTick i.code)) = .next m) :
    eventDue m.block = true ↔ s.block.nextEvent.toNat ≤ (s.block.cycles + 1).toNat := by
  rw [body_due hi h, deadlineReached, eventDue_iff]

/-- In EXECUTE step 3 leaves the deadline of the handler's writes (R116, R134). -/
theorem executeBody_eventDue_iff {s m : State} {r : HandlerRef} (hr : s.block.ir = some r)
    (h : bodyOf .execute (s.onBlock (beginTick 2)) = .next m) :
    eventDue m.block = true ↔
      (applyWrites (nextWrites (.handler r) (s.onBlock (beginTick 2))) (handlerView s.block)).nextEvent.toNat ≤
        (s.block.cycles + 1).toNat := by
  rw [eventDue_iff, body_cycles h, executeBody_block hr h, onBlock_block, beginTick_cycles]

/-- No port call of step 3 is one of the event hook (R116). -/
theorem count_processEvents_portCalls (i : Instr) (s : State) : (portCalls i s).count .processEvents = 0 := by
  cases i with
  | fetch => cases hp : s.block.irqPending <;> simp [portCalls, hp]
  | execute => cases hr : s.block.ir <;> simp [portCalls, hr]
  | _ => rfl

/-- The event check calls the event hook once where the deadline is reached (R116). -/
theorem count_processEvents_eventTrace (due : Bool) :
    (eventTrace due).count .processEvents = if due then 1 else 0 := by
  cases due <;> rfl

/-- The event hook's scripted answer is taken, and its writes are made (R117). -/
theorem afterCheck_scripted {m : State} {ws : List BlockWrite} {rest : List CallAnswer} (hd : eventDue m.block = true)
    (ha : m.answers = .returns ws :: rest) :
    (afterCheck m).answers = rest ∧ (afterCheck m).block = applyWrites ws m.block := by
  obtain ⟨⟨hwrites, -⟩, hanswers⟩ := afterCheck_hook m
  exact ⟨by rw [hanswers, ha, hd]; rfl, hwrites ws rest hd ha⟩

/-- Settles O21: the deadline is reached as step 3 leaves the block, and the event check follows from there. -/
theorem eventHookAtDeadline : Obligations.EventHookAtDeadline := by
  intro i s t h
  obtain ⟨m, hbody, rfl, htrace⟩ := exec_trace h
  refine ⟨eventDue m.block, ?count, ?notDue, fun hi => body_eventDue_iff hi hbody, ?execute, ?hook⟩
  case count =>
    rw [htrace, List.count_append, List.count_append, count_processEvents_portCalls, count_processEvents_eventTrace,
      Nat.add_zero]
  case notDue =>
    intro hd
    rw [afterCheck, hd]
    exact hd
  case execute =>
    rintro rfl r hr
    have hdue := executeBody_eventDue_iff hr hbody
    constructor
    · intro ws rest ha
      rwa [nextWrites_scripted (s := s.onBlock (beginTick 2)) ha] at hdue
    · intro ha
      rwa [nextWrites_free (s := s.onBlock (beginTick 2)) ha] at hdue
  case hook =>
    intro hd ws rest ha
    obtain ⟨hanswers, hblock⟩ := afterCheck_scripted hd ((body_portCalls hbody).2.trans ha)
    rw [hblock]
    refine ⟨hanswers, ?_, ?_, ?_⟩
    · rintro v rfl
      exact ⟨rfl, rfl⟩
    · rintro n rfl
      rfl
    · rintro x rfl
      rfl

/-- A counter that wraps to 0 has not reached a deadline that is not 0 (R118). -/
theorem not_reached_at_wrap {deadline cycles : Cycles} (hc : cycles = 0xFFFFFFFF) (hd : deadline ≠ 0) :
    ¬ deadline.toNat ≤ (cycles + 1).toNat := by
  intro hle
  rw [hc] at hle
  exact hd (BitVec.eq_of_toNat_eq (Nat.le_zero.1 hle))

/-- SLOT3 short of the deadline only counts its cycle and advances the state (R136). -/
theorem exec_slot3_before_deadline {s : State} (hr : s.running = true) (hd : eventDue (beginTick 3 s.block) ≠ true) :
    exec .slot3 s = .next (s.onBlock (beginTick 3)) :=
  (tick_of_body (body := .next) hr rfl).trans (if_neg hd)

/-- Settles O23, by the deadline O21 compares. -/
theorem wrapDoesNotReachDeadline : Obligations.WrapDoesNotReachDeadline := by
  intro s hc
  refine ⟨fun i t h hout hexec => ⟨by rw [exec_cycles h, hc]; rfl, ?_⟩, fun hr hn => ?_⟩
  · obtain ⟨due, hcount, -, hdueOut, hdueExec, -⟩ := eventHookAtDeadline i s t h
    suffices hnot : ¬ due = true by rw [hcount, if_neg hnot, Nat.add_zero]
    by_cases hi : i = .execute
    · obtain ⟨ws, rest, ha, hn⟩ := hexec hi
      subst hi
      obtain ⟨m, hbody, -⟩ := exec_trace h
      obtain ⟨r, hr, -⟩ := executeBody_cases hbody
      rw [(hdueExec rfl r hr).1 ws rest ha]
      exact not_reached_at_wrap hc hn
    · rw [hdueOut hi]
      exact not_reached_at_wrap hc (hout hi)
  · have hdue : eventDue (beginTick 3 s.block) ≠ true := by
      rw [ne_eq, eventDue_iff]
      exact not_reached_at_wrap hc hn
    have hbegin : beginTick 3 s.block = { s.block with cycles := 0, state := 0 } := by
      rw [beginTick, hc]
      rfl
    rw [exec_slot3_before_deadline hr hdue, State.onBlock, hbegin]

end Sys2Proof.Machine

/-! ### Family 41_fetch_decode_execute: what the four ring states leave -/

namespace Sys2Proof.Machine

/-! #### A tick that completes (R110) -/

/-- A running instruction completes where its step 3 goes on and the event hook is answered: what it leaves is what step 3 left,
but for the event hook (R110, R116). -/
theorem exec_completes {i : Instr} {s m : State} (hr : s.running = true)
    (hb : bodyOf i (s.onBlock (beginTick i.code)) = .next m)
    (ha : answersOk (eventCaller (eventDue m.block)) (hookAnswers i s) = true) :
    ∃ t, exec i s = .next t ∧ TickLeaves s m.block (portCalls i s) t ∧ t.mem = m.mem := by
  obtain ⟨htrace, hanswers⟩ := body_portCalls hb
  rw [exec_eq_tick]
  exact tick_completes hr hb (by rw [hanswers]; exact ha) htrace hanswers
    (body_sameSession (s := s.onBlock (beginTick i.code)) hb)

/-- MEMORY_STORE apart, memory reads as before. -/
theorem exec_completes_sameMemory {i : Instr} {s m : State} (hi : i ≠ .memoryStore) (hr : s.running = true)
    (hb : bodyOf i (s.onBlock (beginTick i.code)) = .next m)
    (ha : answersOk (eventCaller (eventDue m.block)) (hookAnswers i s) = true) :
    ∃ t, exec i s = .next t ∧ TickLeaves s m.block (portCalls i s) t ∧ SameMemory s t := by
  obtain ⟨t, hexec, hleaves, hmem⟩ := exec_completes hr hb ha
  have hkept : m.mem = s.mem := (body_mem hb).resolve_right fun h => hi h.1
  exact ⟨t, hexec, hleaves, fun addr => by rw [hmem, hkept]⟩

/-! #### FETCH (R130, R131, R132) -/

/-- FETCH with no interrupt pending makes one load, at `pc` (R130). -/
theorem portCalls_fetch_quiet {s : State} (hp : s.block.irqPending = false) : portCalls .fetch s = [.load s.block.pc] := by
  simp only [portCalls, hp, Bool.false_eq_true, if_false]

/-- FETCH with an interrupt pending disables interrupts, then makes one load, at the vector (R131). -/
theorem portCalls_fetch_pending {s : State} (hp : s.block.irqPending = true) :
    portCalls .fetch s = [.setIE false, .load (zext16 s.block.irqVector)] := by
  simp only [portCalls, hp, if_true]

/-- FETCH's body with no interrupt pending goes on where its load is answered (R130). -/
theorem fetchBody_ok_quiet {s : State} (hp : s.block.irqPending = false) (hl : loadOk s s.block.pc = true) :
    fetchBody s = .next (afterLoad s.block.pc s) := by
  simp only [fetchBody, hp, Bool.false_eq_true, if_false, andThen_next]
  exact loadBus_ok hl

/-- Settles O1: with the latch clear, step 3 is the load at `pc`. -/
theorem fetchLoadsAtPc : Obligations.FetchLoadsAtPc := by
  intro s hr hp hl ha
  have hbody : bodyOf .fetch (s.onBlock (beginTick 0)) = _ :=
    fetchBody_ok_quiet (s := s.onBlock (beginTick 0)) hp hl
  rw [← portCalls_fetch_quiet hp]
  refine exec_completes_sameMemory (by decide) hr hbody ?_
  rw [hookAnswers, portCalls_fetch_quiet hp]
  exact ha

/-- A scripted answer of the disabling hook makes its writes to the redirected block (R131). -/
theorem afterEntry_block_scripted {s : State} {ws : List BlockWrite} {rest : List CallAnswer}
    (ha : s.answers = .returns ws :: rest) :
    (afterEntry s).block = applyWrites ws { s.block with pc := zext16 s.block.irqVector, irqPending := false } := by
  rw [afterEntry, afterCall_block, nextWrites_scripted (s := s.onBlock _) ha]
  rfl

/-- The block step 3 of FETCH leaves where it takes an interrupt: the load follows the entry, which wrote `pc` and the latch
(R131). -/
theorem fetch_pending_block {s : State} (ha : answersOk [.setInterruptsEnabled] s.answers = true) :
    (afterLoad (zext16 s.block.irqVector) (afterEntry (s.onBlock (beginTick 0)))).block =
      { s.block with
        cycles := s.block.cycles + 1, state := 1, pc := zext16 s.block.irqVector,
        bus := loadedByte s (s.draws + if s.answers.isEmpty then 1 else 0) (zext16 s.block.irqVector),
        irqPending := (afterEntry (s.onBlock (beginTick 0))).block.irqPending,
        irqVector := (afterEntry (s.onBlock (beginTick 0))).block.irqVector } := by
  rw [afterLoad_block, (takeInterrupt_ok (s := s.onBlock (beginTick 0)) ha).2.1]
  rfl

/-- Settles O2: step 3 is the entry, which only redirects `pc` and touches the latch, then the load at the vector. -/
theorem fetchTakesPendingInterrupt : Obligations.FetchTakesPendingInterrupt := by
  intro s hr hp hl ha
  obtain ⟨hdisable, hevent⟩ := answersOk_cons.1 ha
  have hbody : bodyOf .fetch (s.onBlock (beginTick 0)) =
      .next (afterLoad (zext16 s.block.irqVector) (afterEntry (s.onBlock (beginTick 0)))) :=
    fetchBody_ok_pending (s := s.onBlock (beginTick 0)) hp hdisable hl
  obtain ⟨t, hexec, hleaves, hmem⟩ := exec_completes_sameMemory (by decide) hr hbody (by
    rw [body_due (by decide) hbody, hookAnswers, portCalls_fetch_pending hp]
    exact hevent)
  rw [portCalls_fetch_pending hp, fetch_pending_block hdisable] at hleaves
  obtain ⟨-, -, hlatch⟩ := takeInterrupt_ok (s := s.onBlock (beginTick 0)) hdisable
  refine ⟨t, _, _, hexec, hleaves, hlatch, ?silent, ?raises, hmem⟩
  case silent =>
    intro rest hs
    rw [afterEntry_block_scripted (s := s.onBlock (beginTick 0)) hs]
    exact ⟨rfl, rfl⟩
  case raises =>
    intro v rest hs
    rw [afterEntry_block_scripted (s := s.onBlock (beginTick 0)) hs]
    exact ⟨rfl, rfl⟩

/-! #### DECODE (R133) -/

/-- Settles O4: DECODE is the dispatch of the byte in `bus` (O5). -/
theorem decodeSelectsHandler : Obligations.DecodeSelectsHandler := by
  intro s
  rw [exec_decode_eq_dispatch]
  exact (dispatchSelectsEntry s s.block.bus).1

/-! #### EXECUTE (R134, R135) -/

/-- Step 3 of EXECUTE with a null `IR` is a fault (R134). -/
theorem executeBody_null {s : State} (hir : s.block.ir = none) :
    executeBody s = .fault (.nullHandler s.block.cycles s.trace) := by
  simp only [executeBody, hir]

/-- Step 3 of EXECUTE is the call of the latched handler (R134). -/
theorem executeBody_call {s : State} {r : HandlerRef} (hir : s.block.ir = some r) :
    executeBody s = callOut (.handler r) (.exec r) s := by
  simp only [executeBody, hir]

/-- EXECUTE completes where its handler and then the event hook are answered: the handler's writes are made to the block it
sees (R134, R135). -/
theorem exec_execute_completes {s : State} {r : HandlerRef} {ws : List BlockWrite} (hr : s.running = true)
    (hir : s.block.ir = some r) (ha : answersOk [.handler r] s.answers = true)
    (hws : nextWrites (.handler r) (s.onBlock (beginTick 2)) = ws)
    (hevent : answersOk (eventCaller (eventDue (applyWrites ws (handlerView s.block)))) s.answers.tail = true) :
    ∃ t, exec .execute s = .next t ∧ TickLeaves s (applyWrites ws (handlerView s.block)) [.exec r] t ∧
      SameMemory s t := by
  subst hws
  have hcalls : portCalls .execute s = [.exec r] := by simp only [portCalls, hir]
  have hbody : bodyOf .execute (s.onBlock (beginTick 2)) = _ :=
    (executeBody_call (s := s.onBlock (beginTick 2)) hir).trans (callOut_ok (s := s.onBlock (beginTick 2)) (.exec r) ha).2
  rw [← hcalls]
  refine exec_completes_sameMemory (by decide) hr hbody ?_
  rw [hookAnswers, hcalls]
  exact hevent

/-- Settles O6: the scripted answer is the handler's, and what is left of the script is the event hook's. -/
theorem executeAppliesHandlerWrites : Obligations.ExecuteAppliesHandlerWrites := by
  intro s h ws rest hr hir ha hws hevent
  refine exec_execute_completes hr hir ?_ (nextWrites_scripted (s := s.onBlock (beginTick 2)) ha) ?_
  · rw [ha, answersOk, answersOk, Bool.and_true]
    exact hws
  · rw [ha]
    exact hevent

/-- Where no answer is scripted every call is answered (log 3). -/
@[simp] theorem answersOk_nil (callers : List Writer) : answersOk callers [] = true := by
  cases callers <;> rfl

/-- Settles O7: with no script, the handler's writes and the event hook's are free ones, which keep the contract. -/
theorem executeCallsHandlerOnItsView : Obligations.ExecuteCallsHandlerOnItsView := by
  intro s h hr hir ha
  exact exec_execute_completes hr hir (by rw [ha, answersOk_nil])
    (nextWrites_free (s := s.onBlock (beginTick 2)) ha) (by rw [ha, List.tail_nil, answersOk_nil])

/-- Settles O8: the fault is of step 3, which finds the cycle already counted. -/
theorem executeNullHandlerFaults : Obligations.ExecuteNullHandlerFaults := by
  intro s hr hir
  exact ⟨exec_fault_of_body hr (executeBody_null (s := s.onBlock (beginTick 2)) hir), rfl⟩

/-! #### SLOT3 (R136) -/

/-- Settles O12: step 3 is empty. -/
theorem slot3DoesNothing : Obligations.Slot3DoesNothing := by
  intro s hr ha
  exact exec_completes_sameMemory (i := .slot3) (by decide) hr rfl ha

end Sys2Proof.Machine

/-! ### Family 42_memory_phase: what the memory-phase micro-states leave -/

namespace Sys2Proof.Machine

/-! #### MEMORY_LOAD (R150) -/

/-- Settles O13: step 3 is the load at `index`. -/
theorem memoryLoadReadsIndex : Obligations.MemoryLoadReadsIndex := by
  intro s hr hl ha
  have hbody : bodyOf .memoryLoad (s.onBlock (beginTick 4)) = _ :=
    loadBus_ok (s := s.onBlock (beginTick 4)) (addr := s.block.index) hl
  exact exec_completes_sameMemory (by decide) hr hbody ha

/-! #### MEMORY_STORE (R151) -/

/-- What memory reads after a store that is answered: the byte stored where its address is plain RAM, and everywhere else what
it read before (R74). -/
theorem afterStore_read {s : State} (hwf : Memory.wf s.mem = true) (addr : Word) (v : Byte) (a : Nat) :
    Memory.read (afterStore addr v s).mem a =
      if inRam s.ram addr = true ∧ a = addr.toNat then v else Memory.read s.mem a := by
  rw [afterStore_mem]
  by_cases hin : inRam s.ram addr = true
  · rw [if_pos hin, Memory.read_write hwf]
    simp only [hin, true_and]
  · rw [if_neg hin, if_neg fun h => hin h.1]

/-- Settles O14: step 3 is the store of `bus` at `index`, which leaves the block alone. -/
theorem memoryStoreWritesIndex : Obligations.MemoryStoreWritesIndex := by
  intro s hr hs hwf ha
  have hbody : bodyOf .memoryStore (s.onBlock (beginTick 5)) = _ :=
    storeByte_ok (s := s.onBlock (beginTick 5)) (addr := s.block.index) s.block.bus hs
  obtain ⟨t, hexec, hleaves, hmem⟩ := exec_completes (i := .memoryStore) hr hbody ha
  have hread (a : Nat) : Memory.read t.mem a =
      if inRam s.ram s.block.index = true ∧ a = s.block.index.toNat then s.block.bus else Memory.read s.mem a := by
    rw [hmem]
    exact afterStore_read (s := s.onBlock (beginTick 5)) hwf _ _ a
  refine ⟨t, hexec, hleaves, fun a hne => ?_, fun hin => ?_, fun hout a => ?_⟩
  · rw [hread, if_neg fun h => hne h.2]
  · rw [hread, if_pos ⟨hin, rfl⟩]
  · rw [hread, if_neg fun h => Bool.eq_false_iff.1 hout h.1]

/-! #### READ_PC (R152) -/

/-- READ_PC's body goes on where its load is answered: `pc` advances after the load, and READ_PC_STALL is forced last. -/
theorem readPcBody_ok {s : State} (hl : loadOk s s.block.pc = true) :
    readPcBody s = .next (forceState 9 ((afterLoad s.block.pc s).onBlock fun b => { b with pc := b.pc + 1 })) := by
  rw [readPcBody, pcAddress, loadBus_ok hl, andThen_next]

/-- Settles O15: step 3 is the load at `pc` before the advance, then the forced transition. -/
theorem readPcLoadsAndAdvances : Obligations.ReadPcLoadsAndAdvances := by
  intro s hr hl ha
  have hbody : bodyOf .readPc (s.onBlock (beginTick 6)) = _ := readPcBody_ok (s := s.onBlock (beginTick 6)) hl
  exact exec_completes_sameMemory (by decide) hr hbody ha

/-! #### MEMORY_MOVE_INDEX_LOAD and MEMORY_MOVE_INDEX_STORE (R153, R154) -/

/-- Settles O16: step 3 of each is a forced transition and no port call. -/
theorem moveIndexRedirects : Obligations.MoveIndexRedirects := by
  intro s hr ha
  exact ⟨exec_completes_sameMemory (i := .memoryMoveIndexLoad) (by decide) hr rfl ha,
    exec_completes_sameMemory (i := .memoryMoveIndexStore) (by decide) hr rfl ha⟩

end Sys2Proof.Machine

/-! ### Family 43_stall: the stalls, and the illegal state codes -/

namespace Sys2Proof.Machine

/-! #### A handler's write of an illegal state code (R94, R172) -/

/-- The codes from 11 up are the illegal ones (R94). -/
theorem legalCode_eq_false {c : StateCode} (hc : 11 ≤ c.toNat) : legalCode c = false :=
  decide_eq_false (Nat.not_le.2 hc)

/-- Settles O10: EXECUTE stops at the write, whose code is illegal, and the fault of such a write is ILLEGAL_STATE. -/
theorem handlerIllegalStateFaults : Obligations.HandlerIllegalStateFaults := by
  intro s h pre post c rest hr hir ha hpre hc
  have hbad : handlerMay (.state c) = false := legalCode_eq_false hc
  have hfault : Host.Outcome.fault (writeFault (.handler h) (.state c) (s.trace ++ [.exec h])) =
      (.fault (.illegalState c (some (.handler h)) (s.trace ++ [.exec h])) : Result) :=
    (writeFault_stopsAtBadWrite _ _ _).1 c rfl hc
  rw [exec_execute_badWrite hr hir ha hpre hbad, hfault]

/-! #### READ_PC_STALL and STALL (R170, R171) -/

/-- Settles O17: step 3 of each is empty, and the auto-advance of 9 and 10 is 2 and 3. -/
theorem stallsDoNothing : Obligations.StallsDoNothing := by
  intro s hr ha
  exact ⟨exec_completes_sameMemory (i := .readPcStall) (by decide) hr rfl ha,
    exec_completes_sameMemory (i := .stall) (by decide) hr rfl ha⟩

/-! #### A captured illegal code (R94, R172) -/

/-- A running tick that captured an illegal code stops in step 3, with no writer to name and no port called (log 12). -/
theorem illegalTick_fault {s : State} (hr : s.running = true) (code : StateCode) :
    illegalTick code s = .fault (.illegalState code none s.trace) := by
  rw [illegalTick, tick, if_pos hr, andThen_fault, onBlock_trace]

/-- Settles O18: each of the five codes is a tick that captured it. -/
theorem illegalCodesFault : Obligations.IllegalCodesFault := by
  intro s hr
  exact ⟨illegalTick_fault hr 11, illegalTick_fault hr 12, illegalTick_fault hr 13, illegalTick_fault hr 14,
    illegalTick_fault hr 15, fun _ _ => rfl⟩

end Sys2Proof.Machine

/-! ### Family 44_control_surface: what the operations of the host do, and which of them are refused -/

namespace Sys2Proof.Machine

/-! #### What the hook calls of components leave (R187, R188) -/

/-- What hook calls of components, each answered within the contract, leave: their events in order, the latch as their
RaiseIRQ calls left it, and everything else as it was (R187, R188). -/
def CallsLeave (cs : List (Event × Writer)) (s t : State) : Prop :=
  t.trace = s.trace ++ cs.map (·.1) ∧ LatchOnly s.block t.block ∧
  (∀ as rest, s.answers = as ++ rest → as.length = cs.length →
    t.block = applyWrites (as.flatMap CallAnswer.writes) s.block ∧ t.answers = rest) ∧
  SameMemory s t ∧ SameSession s t

/-- Hook calls of components answered within the contract complete. -/
theorem makeCalls_completes {cs : List (Event × Writer)} {s : State} (hc : ComponentCalls cs)
    (ha : answersOk (cs.map (·.2)) s.answers = true) : ∃ t, makeCalls cs s = .next t ∧ CallsLeave cs s t := by
  obtain ⟨t, ht, -, htrace⟩ := makeCalls_ok ha
  obtain ⟨hlatch, hmem, hsession, -⟩ := makeCalls_cases hc ht
  exact ⟨t, ht, htrace, hlatch, fun as rest => makeCalls_scripted ht, fun addr => by rw [hmem], hsession⟩

/-- Settles O49: what an operation that goes on leaves of the block is, for these five, at most a new latch. -/
theorem lifecycleTouchesNoRegister : Obligations.LifecycleTouchesNoRegister := by
  intro s t op hop h
  obtain ⟨-, hmem, -, -, -, -, -, -, hleaves⟩ := perform_cases h
  refine ⟨?_, fun addr => by rw [hmem]⟩
  rcases hop with ⟨m, slots, rfl⟩ | rfl | rfl | ⟨i, rfl⟩ | ⟨i, rfl⟩
  case inl =>
    have hblock : t.block = s.block := hleaves
    rw [hblock]
    exact LatchOnly.refl s.block
  all_goals exact hleaves

/-! #### Initialize and Shutdown run their hooks (R182, R183) -/

/-- Settles O50: Initialize is its list of calls, which complete, and then its mark. -/
theorem initializeRunsHooksInOrder : Obligations.InitializeRunsHooksInOrder := by
  intro s hi hs ha
  obtain ⟨m, hm, htrace, hlatch, hscripted, hmem, hsession⟩ := makeCalls_completes (initializeCalls_component s) ha
  refine ⟨{ m with initDone := true }, ?_, htrace, hlatch, hscripted, hmem, rfl, hsession.2⟩
  rw [perform, runInitialize_eq hi hs, hm, andThen_next]

/-- Settles O51: Shutdown is its list of calls, which complete, and then its mark. -/
theorem shutdownRunsHooksInOrder : Obligations.ShutdownRunsHooksInOrder := by
  intro s hi hs ha
  obtain ⟨m, hm, htrace, hlatch, hscripted, hmem, hsession⟩ := makeCalls_completes (shutdownCalls_component s) ha
  obtain ⟨hinit, hreset, -, hrest⟩ := hsession
  refine ⟨{ m with shutDown := true }, ?_, htrace, hlatch, hscripted, hmem, hinit, hreset, rfl, hrest⟩
  rw [perform, runShutdown_eq hi hs, hm, andThen_next]

/-! #### HotplugAttach and HotplugDetach (R184 to R186) -/

/-- HotplugAttach of a populated slot is that slot's `init` hook (R184). -/
theorem perform_hotplugAttach_populated {s : State} {i : Nat} {c : Component} (hs : s.shutDown = false)
    (hc : s.slots[i]? = some (some c)) : perform (.hotplugAttach i) s = callInit (.initSlot i) c s := by
  simp only [perform, hotplugAttach, unlessShutDown_ok hs, hc]

/-- HotplugDetach of a populated slot is that slot's `deinit` hook (R185). -/
theorem perform_hotplugDetach_populated {s : State} {i : Nat} {c : Component} (hs : s.shutDown = false)
    (hc : s.slots[i]? = some (some c)) : perform (.hotplugDetach i) s = callDeinit (.deinitSlot i) c s := by
  simp only [perform, hotplugDetach, unlessShutDown_ok hs, hc]

/-- One hook call of a component, answered within the contract. -/
theorem callOut_component_completes {who : Writer} {s : State} (e : Event) (hwho : admits who = BlockWrite.isRaise)
    (ha : answersOk [who] s.answers = true) :
    ∃ t, callOut who e s = .next t ∧ t.trace = s.trace ++ [e] ∧ LatchOnly s.block t.block ∧
      (∀ ws rest, s.answers = .returns ws :: rest → t.block = applyWrites ws s.block ∧ t.answers = rest) ∧
      SameMemory s t ∧ SameSession s t := by
  obtain ⟨hw, hcall⟩ := callOut_ok e ha
  rw [hwho] at hw
  refine ⟨afterCall who e s, hcall, rfl, applyWrites_raise hw s.block, fun ws rest hanswers => ?_, fun _ => rfl,
    afterCall_sameSession who e s⟩
  simp only [afterCall_block, afterCall_answers, nextWrites, hanswers, List.tail_cons, and_self]

/-- Settles O52: on a populated slot each operation is that slot's one hook, called where it is present. -/
theorem hotplugRunsOneSlot : Obligations.HotplugRunsOneSlot := by
  intro s i c hs hc
  rw [perform_hotplugAttach_populated hs hc, perform_hotplugDetach_populated hs hc]
  refine ⟨fun hinit ha => ?_, fun hdeinit ha => ?_, fun hinit => ?_, fun hdeinit => ?_⟩
  · rw [callInit, if_pos hinit]
    exact callOut_component_completes _ rfl ha
  · rw [callDeinit, if_pos hdeinit]
    exact callOut_component_completes _ rfl ha
  · simp only [callInit, hinit, Bool.false_eq_true, if_false]
  · simp only [callDeinit, hdeinit, Bool.false_eq_true, if_false]

/-- Settles O54: at such an index the slot list holds no component, and neither operation finds a hook. -/
theorem hotplugOutOfRangeNoOp : Obligations.HotplugOutOfRangeNoOp := by
  intro s i hs hi
  simp only [perform, hotplugAttach, hotplugDetach, unlessShutDown_ok hs]
  rcases hi with hi | hi
  · simp only [List.getElem?_eq_none hi, and_self]
  · simp only [hi, and_self]

/-! #### A component hook's write that is no RaiseIRQ (R187, R42, R94) -/

/-- A component's hook stops at its first write that is no RaiseIRQ (R187). -/
theorem callOut_component_badWrite {who : Writer} {s : State} {pre post : List BlockWrite} {w : BlockWrite}
    {rest : List CallAnswer} (e : Event) (hwho : admits who = BlockWrite.isRaise)
    (ha : s.answers = .returns (pre ++ w :: post) :: rest) (hpre : ∀ x ∈ pre, ∃ v, x = .raiseIRQ v)
    (hw : ∀ v, w ≠ .raiseIRQ v) : callOut who e s = .fault (writeFault who w (s.trace ++ [e])) := by
  refine callOut_badWrite e ha ?_ ?_ <;> rw [hwho]
  · exact List.all_eq_true.2 fun x hx => isRaise_iff.2 (hpre x hx)
  · exact Bool.eq_false_iff.2 fun hraise => (isRaise_iff.1 hraise).elim hw

/-- Hook calls of components stop at the first write that is no RaiseIRQ, the calls before it being answered. -/
theorem makeCalls_badWrite {done more : List (Event × Writer)} {e : Event} {who : Writer} {s : State}
    {pre post : List BlockWrite} {w : BlockWrite} {before rest : List CallAnswer}
    (hc : ComponentCalls (done ++ (e, who) :: more)) (ha : s.answers = before ++ .returns (pre ++ w :: post) :: rest)
    (hl : before.length = done.length) (hok : answersOk (done.map (·.2)) before = true)
    (hpre : ∀ x ∈ pre, ∃ v, x = .raiseIRQ v) (hw : ∀ v, w ≠ .raiseIRQ v) :
    makeCalls (done ++ (e, who) :: more) s = .fault (writeFault who w (s.trace ++ done.map (·.1) ++ [e])) := by
  have hwho : admits who = BlockWrite.isRaise := hc (e, who) (by simp)
  refine makeCalls_stops ha hl hok fun m hanswers htrace => ?_
  rw [callOut_component_badWrite e hwho hanswers hpre hw, htrace]

/-- Settles O53: each of the four operations is a list of component hooks' calls, or one, and stops at that write. -/
theorem componentHookBadWriteFaults : Obligations.ComponentHookBadWriteFaults := by
  intro s pre post w rest hs hpre hw
  refine ⟨fun i c hc ha => ⟨fun hinit => ?_, fun hdeinit => ?_⟩,
    fun done e who more before ha hl hok => ⟨fun hi hcalls => ?_, fun hi hcalls => ?_⟩⟩
  · rw [perform_hotplugAttach_populated hs hc, callInit, if_pos hinit, callOut_component_badWrite _ rfl ha hpre hw]
    exact writeFault_stopsAtBadWrite _ _ _
  · rw [perform_hotplugDetach_populated hs hc, callDeinit, if_pos hdeinit,
      callOut_component_badWrite _ rfl ha hpre hw]
    exact writeFault_stopsAtBadWrite _ _ _
  · have hcomponent := hcalls ▸ initializeCalls_component s
    rw [perform, runInitialize_eq hi hs, hcalls, makeCalls_badWrite hcomponent ha hl hok hpre hw, andThen_fault]
    exact writeFault_stopsAtBadWrite _ _ _
  · have hcomponent := hcalls ▸ shutdownCalls_component s
    rw [perform, runShutdown_eq hi hs, hcalls, makeCalls_badWrite hcomponent ha hl hok hpre hw, andThen_fault]
    exact writeFault_stopsAtBadWrite _ _ _

/-! #### The host's calls, and when they are refused (R181, R189, R190, R201) -/

/-- Settles O38: the operation is at the head of the host's queue, and is taken from it. -/
theorem stepPerformsHostOperation : Obligations.StepPerformsHostOperation := by
  intro s op rest hq
  obtain ⟨hcall, hafter⟩ := nextCall_cons hq
  rw [step_op hcall, hafter]

/-- Settles O55: before Shutdown only a missing master stops AttachComponents. -/
theorem attachReplacesComponents : Obligations.AttachReplacesComponents := by
  intro s slots hs
  exact ⟨fun m => unlessShutDown_ok hs _, unlessShutDown_ok hs _, rfl⟩

/-- After Shutdown an operation is refused whatever it would have done (R189). -/
theorem unlessShutDown_refused {s : State} (hs : s.shutDown = true) (r : Result) :
    unlessShutDown s r = .refused .lifecycle :=
  if_pos hs

/-- Initialize twice, or after Shutdown, is refused (R182, R189). -/
theorem runInitialize_refused {s : State} (h : s.initDone = true ∨ s.shutDown = true) :
    runInitialize s = .refused .lifecycle :=
  if_pos (by simpa using h)

/-- Shutdown before Initialize, or twice, is refused (R183, R189). -/
theorem runShutdown_refused {s : State} (h : s.initDone = false ∨ s.shutDown = true) :
    runShutdown s = .refused .lifecycle :=
  if_pos (by simpa using h)

/-- Every operation of the host is refused after Shutdown (R189). -/
theorem perform_refused {s : State} (hs : s.shutDown = true) (op : HostOp) : perform op s = .refused .lifecycle := by
  cases op with
  | callInitialize => exact runInitialize_refused (.inr hs)
  | callShutdown => exact runShutdown_refused (.inr hs)
  | attachComponents _ _ | hotplugAttach _ | hotplugDetach _ | callReset | raiseIRQ _ =>
    exact unlessShutDown_refused hs _

/-- Settles O56: taking the call from the queue leaves the session shut down, so the tick or the operation is refused. -/
theorem afterShutdownRefused : Obligations.AfterShutdownRefused := by
  intro s hs
  cases hcall : nextCall s with
  | tick =>
    rw [step_tick hcall]
    exact exec_refused (by simp [State.running, hs])
  | op o =>
    rw [step_op hcall]
    exact perform_refused (s := afterNextCall s) hs o

/-- Settles O57: the two operations check the lifecycle marks first. -/
theorem lifecycleOrderEnforced : Obligations.LifecycleOrderEnforced :=
  fun _ => ⟨runInitialize_refused, runShutdown_refused⟩

/-! #### Creation checks the configuration (R97, R180, R191) -/

/-- A table gives a list of handlers exactly where every entry is populated, and gives those entries (R97). -/
theorem populated_eq_some_iff {table : List (Option HandlerRef)} {hs : List HandlerRef} :
    populated table = some hs ↔ table = hs.map some := by
  induction table generalizing hs with
  | nil => cases hs <;> simp [populated]
  | cons entry table ih =>
    cases entry with
    | none => cases hs <;> simp [populated]
    | some h => cases hs <;> simp [populated, ih, and_comm]

/-- A table gives no list of handlers exactly where some entry of it is unpopulated (R97). -/
theorem populated_eq_none_iff {table : List (Option HandlerRef)} : populated table = none ↔ none ∈ table := by
  induction table with
  | nil => simp [populated]
  | cons entry table ih => cases entry <;> simp [populated, ih]

/-- A table is turned down exactly where it has an unpopulated entry or is not of 256 entries (R97). -/
theorem checkTable_eq_none_iff {table : List (Option HandlerRef)} :
    checkTable table = none ↔ none ∈ table ∨ table.length ≠ 256 := by
  cases hp : populated table with
  | none => simp [checkTable, hp, populated_eq_none_iff.1 hp]
  | some hs =>
    obtain rfl := populated_eq_some_iff.1 hp
    simp [checkTable, hp]

/-- Settles O58: creation checks the table, then the hooks, then the master, and each check fails as its clause says. -/
theorem badConfigurationRefused : Obligations.BadConfigurationRefused := by
  intro c
  refine ⟨fun hbad => ?_, fun hpopulated hlength => ?_⟩
  · rw [State.create, checkTable_eq_none_iff.2 hbad]
  · have hgood : checkTable c.table ≠ none := by simp [checkTable_eq_none_iff, hpopulated, hlength]
    obtain ⟨table, htable⟩ := Option.ne_none_iff_exists'.1 hgood
    refine ⟨fun hhooks => ?_, fun hhooks hmaster => ?_⟩
    · have hmissing : hooksPresent c = false := hhooks
      simp only [State.create, htable, hmissing, Bool.false_eq_true, if_false]
    · have hpresent : hooksPresent c = true := hhooks
      simp only [State.create, htable, hpresent, if_true, hmaster]

end Sys2Proof.Machine

/-! ### Family 60_exceptions: interrupt entry, the latch, and the halted flag -/

namespace Sys2Proof.Machine

/-! #### RaiseIRQ (R210, R211) -/

/-- RaiseIRQ from the host, before Shutdown, is its effect on the block and nothing else (R210). -/
theorem perform_raiseIRQ {s : State} (hs : s.shutDown = false) (v : Byte) :
    perform (.raiseIRQ v) s = .next (s.onBlock (raiseIRQ v)) := by
  rw [perform, hostRaiseIRQ, unlessShutDown_ok hs]

/-- RaiseIRQ is admitted of every writer (R40, R41, R187). -/
theorem admits_raiseIRQ (who : Writer) (v : Byte) : admits who (.raiseIRQ v) = true := by
  cases who <;> rfl

/-- Settles O44: the host's call, and a writer's, which is admitted whoever the writer is. -/
theorem raiseIRQSetsLatch : Obligations.RaiseIRQSetsLatch := by
  refine fun s v => ⟨fun hs => perform_raiseIRQ hs v, fun who more => ?_⟩
  rw [checkedWrites, if_pos (admits_raiseIRQ who v)]
  rfl

/-- The step of a queued RaiseIRQ takes it off the queue and sets the latch (R210; log 9). -/
theorem step_raiseIRQ {s : State} {v : Byte} {rest : List HostCall} (hs : s.shutDown = false)
    (hq : s.hostCalls = .op (.raiseIRQ v) :: rest) :
    step s = .next ({ s with hostCalls := rest }.onBlock (raiseIRQ v)) := by
  obtain ⟨hnext, hafter⟩ := nextCall_cons hq
  rw [step_op hnext, hafter]
  exact perform_raiseIRQ (s := { s with hostCalls := rest }) hs v

/-- Settles O45: the second call overwrites both fields the first one wrote. -/
theorem lastRaiseWins : Obligations.LastRaiseWins := by
  intro s v w rest hs hq
  rw [step_raiseIRQ hs hq, andThen_next]
  exact step_raiseIRQ (s := { s with hostCalls := .op (.raiseIRQ w) :: rest }.onBlock (raiseIRQ v)) hs rfl

/-! #### Interrupt entry saves nothing (R131, R215) -/

/-- A zero-extended vector is an address of page zero (R9, R131). -/
theorem toNat_zext16_le (v : Byte) : (zext16 v).toNat ≤ 0xFF := by
  have hv := v.isLt
  rw [zext16, BitVec.toNat_setWidth_of_le (by decide)]
  omega

/-- Settles O3: the entry and the load write `pc`, `bus` and the latch, and the event check the four fields of R41. -/
theorem interruptEntrySavesNothing : Obligations.InterruptEntrySavesNothing := by
  intro s t hp h
  obtain ⟨-, m, hbody, -, ⟨hafter, hquiet, -⟩, -⟩ := exec_cases h
  obtain ⟨-, hm⟩ | ⟨hclear, -⟩ := body_leaves hbody
  · have hpc : t.block.pc = zext16 s.block.irqVector := by rw [hafter, hm]; rfl
    refine ⟨?frame, fun hd => ?beforeDeadline, hpc ▸ toNat_zext16_le _⟩
    case frame =>
      rw [hafter, hm]
      rfl
    case beforeDeadline =>
      rw [hquiet ((body_due (by decide) hbody).trans hd), hm]
      exact ⟨rfl, rfl⟩
  · exact absurd (hp.symm.trans hclear) (by decide)

/-! #### The halted flag (R33, R238) -/

/-- The state with another halted flag. -/
def State.withHalted (halted : Bool) (s : State) : State := s.onBlock fun b => { b with halted := halted }

/-- From this state the body answers the same whatever the halted flag is, and carries the flag along. -/
def IgnoresHalted (body : State → Result) (s : State) : Prop :=
  ∀ halted, body (s.withHalted halted) = andThen (body s) fun t => .next (t.withHalted halted)

/-- A load does not see the block (R62). -/
theorem loadBus_ignoresHalted (addr : Word) (s : State) : IgnoresHalted (loadBus addr) s := by
  intro halted
  have hl : (s.withHalted halted).loads = s.loads := rfl
  have hram : (s.withHalted halted).ram = s.ram := rfl
  by_cases hr : inRam s.ram addr = true
  · simp only [loadBus, record_ram, hram, hr, if_true]
    rfl
  · rcases hs : s.loads with _ | ⟨_ | v, rest⟩ <;>
      simp only [loadBus, record_ram, record_loads, hram, hr, hl, hs, Bool.false_eq_true, if_false] <;> rfl

/-- A store does not see the block (R63). -/
theorem storeByte_ignoresHalted (addr : Word) (v : Byte) (s : State) : IgnoresHalted (storeByte addr v) s := by
  intro halted
  have hst : (s.withHalted halted).stores = s.stores := rfl
  have hram : (s.withHalted halted).ram = s.ram := rfl
  by_cases hr : inRam s.ram addr = true
  · simp only [storeByte, record_ram, hram, hr, if_true]
    rfl
  · rcases hs : s.stores with _ | ⟨_ | _, rest⟩ <;>
      simp only [storeByte, record_ram, record_stores, hram, hr, hst, hs, Bool.false_eq_true, if_false] <;> rfl

/-- FETCH's body with no interrupt pending is the load at `pc` (R130). -/
theorem fetchBody_quiet {s : State} (hp : s.block.irqPending = false) : fetchBody s = loadBus s.block.pc s := by
  simp only [fetchBody, hp, Bool.false_eq_true, if_false, andThen_next, pcAddress]

/-- Step 3 of READ_PC looks at no field of the block but `pc` (R152). -/
theorem readPcBody_ignoresHalted (s : State) : IgnoresHalted readPcBody s := by
  intro halted
  have hload : loadBus (pcAddress (s.withHalted halted).block) (s.withHalted halted) = _ :=
    loadBus_ignoresHalted s.block.pc s halted
  rw [readPcBody, hload, readPcBody, andThen_assoc, andThen_assoc]
  rfl

/-- Step 3 of a tick that calls no handler and no hook does not see the halted flag (R238). -/
theorem body_ignoresHalted {i : Instr} {s : State} (hi : i ≠ .execute)
    (hp : i = .fetch → s.block.irqPending = false) : IgnoresHalted (bodyOf i) s := by
  intro halted
  cases i with
  | fetch =>
    have hquiet := hp rfl
    show fetchBody (s.withHalted halted) = andThen (fetchBody s) _
    rw [fetchBody_quiet hquiet, fetchBody_quiet (s := s.withHalted halted) hquiet]
    exact loadBus_ignoresHalted s.block.pc s halted
  | execute => exact absurd rfl hi
  | memoryLoad => exact loadBus_ignoresHalted s.block.index s halted
  | memoryStore => exact storeByte_ignoresHalted s.block.index s.block.bus s halted
  | readPc => exact readPcBody_ignoresHalted s halted
  | _ => rfl

/-- Outside EXECUTE, a running tick short of its deadline is its step 3 alone (R110, R116). -/
theorem exec_before_deadline {i : Instr} {s : State} (hi : i ≠ .execute) (hr : s.running = true)
    (hd : deadlineReached s = false) : exec i s = bodyOf i (s.onBlock (beginTick i.code)) := by
  rw [exec_eq_tick, tick, if_pos hr]
  cases hb : bodyOf i (s.onBlock (beginTick i.code)) with
  | next m => rw [andThen_next, eventCheck, (body_due hi hb).trans hd, if_neg Bool.false_ne_true]
  | fault x => rfl
  | refused x => rfl

/-- Settles O31: such a tick is its step 3 alone, which does not see the flag. -/
theorem haltedDoesNotMatter : Obligations.HaltedDoesNotMatter := by
  intro i s halted hi hd hp
  show exec i (s.withHalted halted) = andThen (exec i s) fun t => .next (t.withHalted halted)
  by_cases hr : s.running = true
  · rw [exec_before_deadline hi hr hd, exec_before_deadline (s := s.withHalted halted) hi hr hd]
    exact body_ignoresHalted (s := s.onBlock (beginTick i.code)) hi hp halted
  · have hstopped : s.running = false := Bool.eq_false_iff.2 hr
    rw [exec_refused hstopped, exec_refused (s := s.withHalted halted) hstopped, andThen_refused]

end Sys2Proof.Machine

/-! ### Family 70_reset_and_hazards: what Reset clears and leaves, the first FETCH after it, and creation -/

namespace Sys2Proof.Machine

/-! #### What Reset leaves (R252, R253, R254) -/

/-- Reset's own writes: every field of the block is zero but `bus`, `index` and the latch (R252, R253). -/
theorem resetBlock_eq (b : Block) :
    resetBlock b =
      { Block.creation with
        bus := b.bus, index := b.index, irqPending := b.irqPending, irqVector := b.irqVector } := rfl

/-- The state Reset leaves where its hook is answered within the contract (R252, R254). -/
def afterReset (s : State) : State :=
  { afterCall .resetHook .resetHook (s.onBlock resetBlock) with resetDone := true }

@[simp] theorem afterReset_initDone (s : State) : (afterReset s).initDone = s.initDone := rfl
@[simp] theorem afterReset_resetDone (s : State) : (afterReset s).resetDone = true := rfl
@[simp] theorem afterReset_shutDown (s : State) : (afterReset s).shutDown = s.shutDown := rfl
@[simp] theorem afterReset_hostCalls (s : State) : (afterReset s).hostCalls = s.hostCalls := rfl
@[simp] theorem afterReset_trace (s : State) : (afterReset s).trace = s.trace ++ [.resetHook] := rfl
@[simp] theorem afterReset_answers (s : State) : (afterReset s).answers = s.answers.tail := rfl

/-- Reset marks the lifecycle and changes nothing else of the session (R252). -/
theorem afterReset_sameSession (s : State) : SameSession { s with resetDone := true } (afterReset s) :=
  ⟨rfl, rfl, rfl, rfl, rfl, rfl, rfl, rfl⟩

/-- Before Shutdown, Reset completes where its hook is answered within the contract; its hook leaves what R41 allows. -/
theorem perform_callReset_ok {s : State} (hs : s.shutDown = false) (ha : answersOk [.resetHook] s.answers = true) :
    perform .callReset s = .next (afterReset s) ∧ HookLeaves (resetBlock s.block) (afterReset s).block :=
  runReset_ok hs ha

/-- A scripted answer of the reset hook makes its writes to the cleared block (R254). -/
theorem afterReset_block_scripted {s : State} {ws : List BlockWrite} {rest : List CallAnswer}
    (ha : s.answers = .returns ws :: rest) : (afterReset s).block = applyWrites ws (resetBlock s.block) := by
  rw [afterReset, afterCall_block, nextWrites_scripted (s := s.onBlock resetBlock) ha, onBlock_block]

/-- A reset hook that writes nothing leaves the cleared block (R252). -/
theorem afterReset_block_silent {s : State} {rest : List CallAnswer} (ha : s.answers = .returns [] :: rest) :
    (afterReset s).block = resetBlock s.block :=
  afterReset_block_scripted ha

/-- Settles O46: the cleared block, then the writes of the hook's answer. -/
theorem resetClearsTheBlock : Obligations.ResetClearsTheBlock := by
  intro s hs ha
  obtain ⟨hreset, hframe, hlatch⟩ := perform_callReset_ok hs ha
  have hscript : ∀ ws rest, s.answers = .returns ws :: rest →
      (afterReset s).answers = rest ∧ (afterReset s).block = applyWrites ws (resetBlock s.block) :=
    fun ws rest h => ⟨by rw [afterReset_answers, h, List.tail_cons], afterReset_block_scripted h⟩
  refine ⟨afterReset s, hreset, ⟨hframe, nofun, hlatch⟩, fun rest h => (hscript _ rest h).2, hscript,
    fun n rest h => ?nextEvent, fun x rest h => ?halted, fun v rest h => ?raise, afterReset_trace s, fun _ => rfl,
    afterReset_sameSession s⟩
  case nextEvent => rw [afterReset_block_scripted h]; rfl
  case halted => rw [afterReset_block_scripted h]; rfl
  case raise => rw [afterReset_block_scripted h]; exact ⟨rfl, rfl⟩

/-! #### The first FETCH after Reset (R253, R255) -/

/-- The step of a Tick call in the state FETCH is a FETCH (R90, R91). -/
theorem step_fetch {s : State} (hc : nextCall s = .tick) (hf : s.block.state = 0) :
    step s = exec .fetch (afterNextCall s) := by
  rw [step_tick hc, hf]
  rfl

/-- The next call is a Tick where none is queued, or a Tick is at the head of the queue (R3). -/
theorem nextCall_eq_tick {s : State} (h : s.hostCalls = [] ∨ s.hostCalls.head? = some .tick) : nextCall s = .tick := by
  obtain h | h := h
  · exact (nextCall_nil h).1
  · exact (nextCall_cons (List.eq_cons_of_mem_head? h)).1

/-- The step of a queued Reset (R190, R252). -/
theorem step_callReset {s : State} {more : List HostCall} (hs : s.shutDown = false)
    (hq : s.hostCalls = .op .callReset :: more) (ha : answersOk [.resetHook] s.answers = true) :
    step s = .next (afterReset { s with hostCalls := more }) := by
  rw [stepPerformsHostOperation s .callReset more hq]
  exact (perform_callReset_ok (s := { s with hostCalls := more }) hs ha).1

/-- A FETCH on a block that Reset cleared, with no interrupt pending: it loads at address 0, and its cycle passes the cleared
deadline (R116, R130, R255). -/
theorem exec_fetch_cleared {s : State} {b : Block} (hb : s.block = resetBlock b) (hr : s.running = true)
    (hp : b.irqPending = false) (hl : loadOk s 0 = true) (ha : answersOk [.processEvents] s.answers = true) :
    ∃ t, exec .fetch s = .next t ∧ t.block.cycles = 1 ∧ t.block.state = 1 ∧ t.block.pc = 0 ∧
      t.trace = s.trace ++ [.load 0] ++ [.processEvents] := by
  rw [resetBlock_eq] at hb
  have hpc : s.block.pc = 0 := by rw [hb]; rfl
  have hdue : deadlineReached s = true := by rw [deadlineReached, hb]; rfl
  obtain ⟨t, hexec, ⟨⟨hleaves, -, -⟩, -, htrace, -⟩, -⟩ :=
    fetchLoadsAtPc s hr (by rw [hb]; exact hp) (by rwa [hpc]) (by rwa [hdue])
  refine ⟨t, hexec, by rw [hleaves, hb]; rfl, by rw [hleaves], by rw [hleaves]; exact hpc, ?_⟩
  rw [htrace, hpc, hb]
  rfl

/-- Settles O47: Reset leaves the cleared block, in the state FETCH, and the Tick after it is a FETCH at address 0. -/
theorem resetThenTick : Obligations.ResetThenTick := by
  intro s rest more hi hs hp hq hmore ha hevent hl
  have hblock : (afterReset { s with hostCalls := more }).block = resetBlock s.block :=
    afterReset_block_silent (s := { s with hostCalls := more }) ha
  obtain ⟨t, hexec, hcycles, hstate, hpc, htrace⟩ :=
    exec_fetch_cleared (s := afterNextCall (afterReset { s with hostCalls := more })) hblock
      (by simp [State.running, hi, hs]) hp hl (by simpa [ha] using hevent)
  refine ⟨t, ?_, hcycles, hstate, hpc, by rw [htrace]; simp⟩
  rw [step_callReset hs hq (by rw [ha]; rfl), andThen_next,
    step_fetch (nextCall_eq_tick hmore) (by rw [hblock]; rfl), hexec]

/-- Settles O48: Reset keeps the latch, so the FETCH that follows is an interrupt entry. -/
theorem pendingSurvivesReset : Obligations.PendingSurvivesReset := by
  intro s t u rest hp ha hreset hcall hstep
  obtain ⟨hs, -⟩ := perform_cases hreset
  rw [(perform_callReset_ok hs (by rw [ha]; rfl)).1] at hreset
  obtain rfl : afterReset s = t := Host.Outcome.next.inj hreset
  have hblock : (afterReset s).block = resetBlock s.block := afterReset_block_silent ha
  have hpending : (afterReset s).block.irqPending = true := by rw [hblock]; exact hp
  have hvector : (afterReset s).block.irqVector = s.block.irqVector := by rw [hblock]; rfl
  rw [step_fetch hcall (by rw [hblock]; rfl)] at hstep
  obtain ⟨hleaves, -⟩ := interruptEntrySavesNothing (afterNextCall (afterReset s)) u hpending hstep
  obtain ⟨m, -, -, htrace⟩ := exec_trace hstep
  rw [portCalls_fetch_pending (s := afterNextCall (afterReset s)) hpending] at htrace
  refine ⟨hpending, hvector, by rw [hleaves, afterNextCall_block, hvector], eventTrace (eventDue m.block), ?_⟩
  rw [htrace, afterNextCall_block, hvector]
  simp

/-! #### Creation (R250) -/

/-- A table of 256 handlers, each entry populated, passes the check and is the table built (R97). -/
theorem checkTable_map_some {hs : List HandlerRef} (hl : hs.length = 256) :
    checkTable (hs.map some) = some ⟨hs.toArray, by simpa using hl⟩ := by
  simp only [checkTable, populated_eq_some_iff.2 rfl, dif_pos hl]

/-- Settles O59: the three checks of creation pass, and the initial image is in canonical form. -/
theorem creationState : Obligations.CreationState := by
  intro c m hs htable hl hhooks hm
  have hpresent : hooksPresent c = true := hhooks
  rw [State.create, htable, checkTable_map_some hl, hm]
  simp only [hpresent, if_true]
  exact ⟨_, rfl, rfl, rfl, rfl, rfl, rfl, rfl, rfl, rfl, Memory.image_wf c.image, nofun⟩

end Sys2Proof.Machine
